-- ==== Sys2Proof/Word.lean ====
section
/-! DEFINITION. Sys2Proof/Word.lean: the word types of FBCORE's formats (30_encoding.md section 1), the names
that its fields carry, and their numeric codes. -/

namespace Sys2Proof

/-- An unsigned 8-bit value (R8). -/
abbrev Byte := BitVec 8

/-- A request word, format `REQ64` (R70). -/
abbrev ReqWord := BitVec 64

/-- The width of the coordinate fields `X` and `Y` of a request word (R70, R73). It is `COORD_W` of every well-formed
configuration (R6; log entry 23). -/
abbrev reqCoordW : Nat := 16

/-- The width of the index field `IDX` of a request word (R70, R74). It is `IDX_W` of every well-formed configuration (R6;
log entry 23). -/
abbrev reqIdxW : Nat := 32

/-- A response word, format `RSP16` (R77). -/
abbrev RspWord := BitVec 16

/-- A controller command read as its three bytes in issue order, format `ctrl_cmd3` (R79). -/
abbrev CtrlWord := BitVec 24

/-- The target of a transport transaction (R78, R185). -/
inductive TxKind where
  /-- The controller's command register. -/
  | cmd
  /-- The controller's data register. -/
  | data
  deriving DecidableEq, Repr

/-- A transport transaction `(kind, b)` (R78). -/
structure Tx where
  kind : TxKind
  byte : Byte
  deriving DecidableEq, Repr

/-- The `STATUS` names of a response (R77). -/
inductive Status where
  | ok
  | busError
  | outOfRange
  | illegalRequest
  deriving DecidableEq, Repr

end Sys2Proof
end

