-- ==== Sys2Proof/Config.lean ====
section
/-! DEFINITION. Sys2Proof/Config.lean: the implementation parameters of FBCORE, one record (R6). Their values are
fixed for the life of an instance. FBCORE has no opaque free value: every open point of the spec is a parameter
here or an input held in State. -/

namespace Sys2Proof

/-- `WINDOW_POLICY` (R6, R136, R137): how the window of a FLUSH is taken from the difference set. -/
inductive WindowPolicy where
  | corners
  | bounding
  deriving DecidableEq, Repr

/-- The configuration record (R6). -/
structure Config where
  /-- `WIDTH` in pixels. -/
  width : Nat
  /-- `HEIGHT` in pixels. -/
  height : Nat
  /-- `PAGE_WIDTH`, the controller's columns per addressing row. -/
  pageWidth : Nat
  /-- `COORD_W`, the bits of a coordinate, signed two's complement. -/
  coordW : Nat
  /-- `IDX_W`, the bits of a byte index, unsigned. -/
  idxW : Nat
  /-- `OPC_SET_COLUMN`. -/
  opcSetColumn : Byte
  /-- `OPC_SET_PAGE`. -/
  opcSetPage : Byte
  /-- `WINDOW_POLICY`. -/
  windowPolicy : WindowPolicy
  /-- `NODIFF_CLEARS`. -/
  nodiffClears : Bool
  deriving DecidableEq, Repr

namespace Config

/-- `PAGES` (R6). -/
def pages (c : Config) : Nat := c.height / 8

/-- `N`, the bytes of FB and of SNAP (R6). -/
def n (c : Config) : Nat := c.width * c.height / 8

/-- `MAX_COL` (R6). -/
def maxCol (c : Config) : Nat := c.pageWidth - 1

/-- `MAX_PAGE` (R6). -/
def maxPage (c : Config) : Nat := c.pages - 1

/-- The values of "this hardware" (R6). The opcode bytes 0x21 and 0x22 are the spec's defaults and rest on general
knowledge, not on its source (93_implementation_defined.md U11; log entry 1). -/
def default : Config where
  width := 128
  height := 64
  pageWidth := 128
  coordW := 16
  idxW := 32
  opcSetColumn := 0x21
  opcSetPage := 0x22
  windowPolicy := .corners
  nodiffClears := false

end Config

end Sys2Proof
end

