-- ==== Sys2Proof/Syntax.lean ====
section
/-! DEFINITION. Sys2Proof/Syntax.lean: the instructions, one constructor per row of spec/opcode_table.json.
Coordinates are mathematical integers and indices natural numbers, as the spec's rules read them (R73, R74); the
ranges their fields admit are checked in WellFormed.lean. -/

namespace Sys2Proof

/-- The rows of the opcode table: five host requests (R75) and the two controller commands that FBCORE emits (R79). -/
inductive Instr where
  /-- `SETPX x, y, on` (R100). -/
  | setpx (x y : Int) (on : Bool)
  /-- `CLEAR` (R101). -/
  | clear
  /-- `BYTEAT idx` (R102). -/
  | byteat (idx : Nat)
  /-- `FLUSH` (R141). -/
  | flush
  /-- `FLUSHALL` (R145). -/
  | flushall
  /-- `SET_COLUMN_ADDRESS sc, ec` (R79, R180): emitted by FBCORE, never a host request. -/
  | setColumnAddress (sc ec : Nat)
  /-- `SET_PAGE_ADDRESS sp, ep` (R79, R180): emitted by FBCORE, never a host request. -/
  | setPageAddress (sp ep : Nat)
  deriving DecidableEq, Repr

/-- The pseudo-instruction `PXON x, y` (R82). -/
def Instr.pxon (x y : Int) : Instr := .setpx x y true

/-- The pseudo-instruction `PXOFF x, y` (R82). -/
def Instr.pxoff (x y : Int) : Instr := .setpx x y false

/-- The instructions that a host can present (R75): all but the two controller commands. -/
def Instr.isRequest : Instr → Bool
  | .setpx _ _ _ => true
  | .clear => true
  | .byteat _ => true
  | .flush => true
  | .flushall => true
  | .setColumnAddress _ _ => false
  | .setPageAddress _ _ => false

end Sys2Proof
end

