-- ==== Sys2Proof/WellFormed.lean ====
section
/-! DEFINITION. Sys2Proof/WellFormed.lean: which configurations an instance may be built from (R7), and which
instructions have an encoding (R70, R73, R74, R79, R81). -/

namespace Sys2Proof

/-- R7: the five conditions of a well-formed configuration. That the two opcodes are byte values (the first half of
condition (5)) is their type. Beside them, `COORD_W` and `IDX_W` are the widths that the fields of a request word have (R70,
R73, R74): R6 gives no other value (log entry 23). -/
def Config.wf (c : Config) : Bool :=
  c.width == c.pageWidth
    && c.height % 8 == 0
    && decide (8 ≤ c.height) && decide (c.height ≤ 64)
    && c.pageWidth == 128
    && c.opcSetColumn != c.opcSetPage
    && c.coordW == reqCoordW && c.idxW == reqIdxW

/-- A coordinate that a signed field of `COORD_W` = 16 bits holds (R6, R73): -32768..32767. -/
def coordOk (v : Int) : Bool := decide (-2 ^ (reqCoordW - 1) ≤ v) && decide (v < 2 ^ (reqCoordW - 1))

/-- An instruction whose every operand fits its field: the pixel coordinates (R73), the byte index of `IDX_W` = 32
bits (R6, R74), the window values of a controller command (R79). An operand outside its range is an assembly error, not an encoding (R81). -/
def Instr.wf : Instr → Bool
  | .setpx x y _ => coordOk x && coordOk y
  | .clear => true
  | .byteat idx => decide (idx < 2 ^ reqIdxW)
  | .flush => true
  | .flushall => true
  | .setColumnAddress sc ec => decide (sc < 256) && decide (ec < 256)
  | .setPageAddress sp ep => decide (sp < 256) && decide (ep < 256)

end Sys2Proof
end

