-- ==== Sys2Proof/Decode.lean ====
section
/-! DEFINITION. Sys2Proof/Decode.lean: the decoder of request words (R75), the reader of the controller commands that
FBCORE emits (R79), the encoders of both, and the codes of transactions (R78) and responses (R77). -/

namespace Sys2Proof

/-- Why a word is no instruction. -/
inductive Reject where
  /-- R76: opcode byte 0x00 or 0x06 to 0xFF of a request word. -/
  | illegalOpcode (op : Byte)
  /-- R76: a legal opcode with a must-be-0 bit set. -/
  | mustBeZero (op : Byte)
  /-- A 24-bit word whose first byte is neither `OPC_SET_COLUMN` nor `OPC_SET_PAGE` (R79). -/
  | notWindowCommand (op : Byte)
  deriving DecidableEq, Repr

/-- An encoded instruction with its format (30_encoding.md section 1): a request word or a controller command. -/
inductive Encoded where
  | req (w : ReqWord)
  | ctrl (w : CtrlWord)
  deriving DecidableEq, Repr

/-- `v[hi:lo]`, bits `lo + len - 1` down to `lo` of `v` (R8). -/
def field {w : Nat} (v : BitVec w) (lo len : Nat) : BitVec len := v.extractLsb' lo len

/-- R71: the opcode field `W[63:56]`. -/
def reqOp (w : ReqWord) : Byte := field w 56 8

/-- R72: the pixel value `W[48]`. -/
def reqOn (w : ReqWord) : Bool := field w 48 1 == 1

/-- R73: the column, `sext_16(W[15:0])`. -/
def reqX (w : ReqWord) : Int := (field w 0 reqCoordW).toInt

/-- R73: the row, `sext_16(W[31:16])`. -/
def reqY (w : ReqWord) : Int := (field w 16 reqCoordW).toInt

/-- R74: the byte index, `zext_32(W[31:0])`. -/
def reqIdx (w : ReqWord) : Nat := (field w 0 reqIdxW).toNat

/-- R75: the decoder of request words. Every 64-bit word gives one of the five requests, or ILLEGAL with its reason. -/
def decodeReq (w : ReqWord) : Except Reject Instr :=
  if reqOp w = 0x01 then
    if field w 49 7 = 0 ∧ field w 32 16 = 0 then .ok (.setpx (reqX w) (reqY w) (reqOn w))
    else .error (.mustBeZero (reqOp w))
  else if reqOp w = 0x02 then
    if field w 0 56 = 0 then .ok .clear else .error (.mustBeZero (reqOp w))
  else if reqOp w = 0x03 then
    if field w 32 24 = 0 then .ok (.byteat (reqIdx w)) else .error (.mustBeZero (reqOp w))
  else if reqOp w = 0x04 then
    if field w 0 56 = 0 then .ok .flush else .error (.mustBeZero (reqOp w))
  else if reqOp w = 0x05 then
    if field w 0 56 = 0 then .ok .flushall else .error (.mustBeZero (reqOp w))
  else .error (.illegalOpcode (reqOp w))

/-- R79: reads the three bytes of a controller command, in issue order, as the command they are. The opcode bytes are
those of the configuration. The decoder of R75 never sees such a word. -/
def decodeCtrl (c : Config) (w : CtrlWord) : Except Reject Instr :=
  let op := field w 16 8
  if op = c.opcSetColumn then .ok (.setColumnAddress (field w 8 8).toNat (field w 0 8).toNat)
  else if op = c.opcSetPage then .ok (.setPageAddress (field w 8 8).toNat (field w 0 8).toNat)
  else .error (.notWindowCommand op)

/-- Decoding, total on both formats. -/
def decode (c : Config) : Encoded → Except Reject Instr
  | .req w => decodeReq w
  | .ctrl w => decodeCtrl c w

/-- The instruction that the decoder reads from an opcode-table word: bit 0 of `w` is bit 0 of the request word (the
words are parallel words, R56), and a 24-bit row is a controller command under the default configuration. -/
def decodeTableWord (nbits w : Nat) : Option Instr :=
  if nbits = 24 then (decodeCtrl Config.default (BitVec.ofNat 24 w)).toOption
  else (decodeReq (BitVec.ofNat 64 w)).toOption

/-- R70: a request word from its fields `OP`, `Z1`, `ON`, `Z0`, `Y` and `X`. -/
def reqWord (op : Byte) (on : Bool) (y x : BitVec reqCoordW) : ReqWord :=
  op ++ (0 : BitVec 7) ++ BitVec.ofBool on ++ (0 : BitVec 16) ++ y ++ x

/-- R79: a controller command's three bytes in issue order. -/
def ctrlWord (op start stop : Byte) : CtrlWord := op ++ start ++ stop

/-- The word of an instruction, from the encoding tables (R70, R79, R81). -/
def encode (c : Config) : Instr → Encoded
  | .setpx x y on => .req (reqWord 0x01 on (BitVec.ofInt reqCoordW y) (BitVec.ofInt reqCoordW x))
  | .clear => .req (reqWord 0x02 false 0 0)
  | .byteat idx => .req
      (reqWord 0x03 false (field (BitVec.ofNat reqIdxW idx) 16 16) (field (BitVec.ofNat reqIdxW idx) 0 16))
  | .flush => .req (reqWord 0x04 false 0 0)
  | .flushall => .req (reqWord 0x05 false 0 0)
  | .setColumnAddress sc ec => .ctrl (ctrlWord c.opcSetColumn (BitVec.ofNat 8 sc) (BitVec.ofNat 8 ec))
  | .setPageAddress sp ep => .ctrl (ctrlWord c.opcSetPage (BitVec.ofNat 8 sp) (BitVec.ofNat 8 ep))

/-- R78: the kind bit, CMD = 0 and DATA = 1. -/
def TxKind.code : TxKind → BitVec 1
  | .cmd => 0
  | .data => 1

/-- R78: the nine bits of a transaction (format `TX9`). R78 gives the kind bit's values; that it stands above the byte, in
bit 8, is the model's choice (DESIGN CHOICE, log entry 21). -/
def Tx.encode (t : Tx) : BitVec 9 := t.kind.code ++ t.byte

/-- R78: the transaction of nine bits, the kind bit in bit 8 (log entry 21); every pattern is one. -/
def decodeTx (w : BitVec 9) : Tx where
  kind := if field w 8 1 = 0 then .cmd else .data
  byte := field w 0 8

end Sys2Proof
end

