-- ==== Sys2Proof/Machine/State.lean ====
section
/-! DEFINITION. Sys2Proof/Machine/State.lean: the state of FBCORE (R34), the inputs of its environment (R32, R190), the
observations that a model records (R33, R204, R217), the reasons a step can stop, and the state after reset. Plain
data throughout. -/

namespace Sys2Proof.Machine

/-- A byte memory of `N` bytes, FB or SNAP (R25, R26): the bytes that are not 0x00, in strictly rising index order. An
index that is not listed reads as 0x00, the reset contents (R34; log entry 12). -/
abbrev Memory := List Host.Cell

/-- The memory whose every byte is 0x00. -/
def Memory.zeros : Memory := []

/-- The transport's answer to a transaction (R78, R185). -/
inductive Answer where
  | ok
  | fail
  deriving DecidableEq, Repr

/-- One entry of the transaction history, `(kind, b, answer)` (R33). -/
structure Event where
  tx : Tx
  answer : Answer
  deriving DecidableEq, Repr

/-- An addressing window `(sc, ec, sp, ep)`, all inclusive (R11). -/
structure Window where
  sc : Nat
  ec : Nat
  sp : Nat
  ep : Nat
  deriving DecidableEq, Repr

/-- What the sequencer holds during FLUSHING (R28): the transaction list, the count of its transactions answered OK,
and the window latches `FIRST`, `LASTX`, `SC`, `EC`, `SP`, `EP`. -/
structure Latches where
  txlist : List Tx
  txpos : Nat
  first : Nat
  lastx : Nat
  win : Window
  deriving DecidableEq, Repr

/-- The sequencer phase `seq` (R27). The latches exist in FLUSHING only (R28, R34; log entry 11). -/
inductive Seq where
  /-- IDLE: the request port is ready. -/
  | idle
  /-- FLUSHING: the transaction list of an accepted FLUSH or FLUSHALL is being worked through. -/
  | flushing (q : Latches)
  /-- The MODEL's own phase: the transactions of controller commands that no flush owns are being issued. Only the
  command slot leads here (log entry 10). -/
  | commanding (txs : List Tx)
  deriving DecidableEq, Repr

/-- The machine, its inputs and the observations made of it. -/
structure State where
  /-- The configuration, fixed for the life of the instance (R6). -/
  cfg : Config
  /-- FB (R25). -/
  fb : Memory
  /-- SNAP (R26). -/
  snap : Memory
  /-- The sequencer phase with its latches (R27, R28). -/
  seq : Seq
  /-- The pending response (R34), from its giving until the next acceptance or a reset (log entry 5). -/
  response : Option RspWord
  /-- Input: the request words the host presents, in order. The first stands on the request port; while FLUSHING it is
  the held request (R30; log entry 2). -/
  requests : List ReqWord
  /-- Input: the transport's answers to come, in order. Empty: the transport does not answer (R190; log entry 3). -/
  answers : List Answer
  /-- Input: the reset line as each step to come finds it. Empty: not asserted (R31 (4); log entry 4). -/
  resetLine : List Bool
  /-- Input of the MODEL's own: a controller command for the adapter outside a flush (log entry 10). -/
  command : Option CtrlWord
  /-- Observation: every transaction, in issue order (R33). -/
  history : List Event
  /-- Observation: every response, in the order given (R77, R217; log entry 6). -/
  responses : List RspWord
  /-- Observation: the sticky WindowContract fault (R204). -/
  windowContract : Bool
  deriving DecidableEq, Repr

/-- Why the machine stops with a fault. No state of a well-formed configuration faults: FBCORE has no trap mechanism,
and its errors end a request, not the machine (R200). -/
inductive Fault where
  /-- A byte index outside `0 .. N-1` was formed for FB: the source's "buffer index construction error" (R202). Raised
  by SETPX and by the opening of a flush. Safe: the machine stops. Only an ill-formed configuration leads here. -/
  | noSuchIndex (index : Nat)
  deriving DecidableEq, Repr

/-- Why a step has no meaning. -/
inductive Refusal where
  /-- An instruction that the model gives no meaning. Raised by `exec` only; no arm raises it. Safe. -/
  | notModelled (mnemonic : String)
  /-- The configuration is not well formed: "A model refuses an ill-formed configuration" (R7). Raised by `step`. Safe. -/
  | illFormedConfiguration
  /-- R203: "A run that presents an illegal word is refused, and no claim is made about it." Raised by `run`
  (Safety.lean), at the step that accepts the word; `step` itself gives the block's answer, 0x0300 (log entry 7). Safe. -/
  | illegalRequest (w : ReqWord)
  /-- The word of the command slot is no controller command (R79). Raised by `step`, and only for a word that the model's
  own command slot was given; no request leads here. Safe. -/
  | notWindowCommand (w : CtrlWord)
  deriving DecidableEq, Repr

/-- The outcome of an instruction or of a step. -/
abbrev Outcome := Host.Outcome State Fault Refusal

/-- An instance right after its construction, before the host presents anything (R34, R230): every piece of state at its
reset value, no input yet, nothing recorded yet. -/
def State.fresh (c : Config) : State where
  cfg := c
  fb := Memory.zeros
  snap := Memory.zeros
  seq := .idle
  response := none
  requests := []
  answers := []
  resetLine := []
  command := none
  history := []
  responses := []
  windowContract := false

/-- The machine right after reset, with the parameters of this hardware (R6, R34, R230, R232). -/
def State.reset : State := State.fresh Config.default

end Sys2Proof.Machine
end

