-- ==== Sys2Proof/Machine/Flags.lean ====
section
/-! DEFINITION. Sys2Proof/Machine/Flags.lean: FBCORE has no status flags and no condition codes (R22). The outcome of a
request is its response word, computed here (R77). -/

namespace Sys2Proof.Machine

/-- R77: the `STATUS` codes. -/
def statusCode : Status → Byte
  | .ok => 0x00
  | .busError => 0x01
  | .outOfRange => 0x02
  | .illegalRequest => 0x03

/-- R77: the response word, `STATUS` in bits 15:8 and `DATA` in bits 7:0. -/
def rspWord (st : Status) (data : Byte) : RspWord := statusCode st ++ data

/-- R77: the `STATUS` field of a response word. -/
def rspStatus (r : RspWord) : Byte := r.extractLsb' 8 8

/-- R77: the `DATA` field of a response word. -/
def rspData (r : RspWord) : Byte := r.extractLsb' 0 8

end Sys2Proof.Machine
end

