-- ==== Sys2Proof/Machine/Operands.lean ====
section
/-! DEFINITION. Sys2Proof/Machine/Operands.lean: the operand forms of the requests: pixel coordinates and their place in
FB (R51 to R53), byte indices and their window coordinates (R54), the bit of a byte that a pixel is (R52, R100). -/

namespace Sys2Proof.Machine

/-- R53: the in-bounds predicate, on signed coordinates. -/
def inb (c : Config) (x y : Int) : Bool :=
  decide (0 ≤ x) && decide (x < c.width) && decide (0 ≤ y) && decide (y < c.height)

/-- R51: the byte index of an in-bounds pixel. -/
def pixelIndex (c : Config) (x y : Int) : Nat := x.toNat + y.toNat / 8 * c.width

/-- R51, R52: the bit of a pixel within its byte; bit 0 is the topmost row of the page. -/
def pixelBit (y : Int) : Nat := y.toNat % 8

/-- R100: a byte with bit `k` set or cleared. -/
def putBit (old : Byte) (k : Nat) (on : Bool) : Byte :=
  if on then old ||| (1 : Byte) <<< k else old &&& ((0xFF : Byte) ^^^ (1 : Byte) <<< k)

/-- R54: the column of a byte index. -/
def column (c : Config) (i : Nat) : Nat := i % c.pageWidth

/-- R54: the page of a byte index. -/
def page (c : Config) (i : Nat) : Nat := i / c.pageWidth

/-- R140: index `i` lies in the window. -/
def inWindow (c : Config) (w : Window) (i : Nat) : Bool :=
  decide (w.sc ≤ column c i) && decide (column c i ≤ w.ec) && decide (w.sp ≤ page c i) && decide (page c i ≤ w.ep)

end Sys2Proof.Machine
end

