-- ==== Sys2Proof/Machine/Ops.lean ====
section
/-! DEFINITION. Sys2Proof/Machine/Ops.lean: the named operations over the two memories (R9, R55), giving a response
(R77), raising an error (R200), and issuing a transaction (R33, R185). -/

namespace Sys2Proof.Machine

/-- The byte at an index; an index that is not listed reads as 0x00. -/
def Memory.read : Memory → Nat → Byte
  | [], _ => 0
  | (k, v) :: rest, i => if k = i then v else Memory.read rest i

/-- The memory with byte `v` at index `i`. The canonical form is kept: a 0x00 is not listed. -/
def Memory.write : Memory → Nat → Byte → Memory
  | [], i, v => if v = 0 then [] else [(i, v)]
  | (k, b) :: rest, i, v =>
    if i < k then (if v = 0 then (k, b) :: rest else (i, v) :: (k, b) :: rest)
    else if i = k then (if v = 0 then rest else (i, v) :: rest)
    else (k, b) :: Memory.write rest i v

/-- The canonical form: indices strictly rising, and no byte 0x00 listed. -/
def Memory.wf : Memory → Bool
  | [] => true
  | (k, v) :: rest => v != 0 && rest.all (fun cell => decide (k < cell.1)) && Memory.wf rest

/-- Every listed index lies in `0 .. n-1`. -/
def Memory.within (n : Nat) (m : Memory) : Bool := m.all (fun cell => decide (cell.1 < n))

/-- R9, R102: `FB[i]`, one byte read; `none` at an index that does not exist. -/
def State.readFB (s : State) (i : Nat) : Option Byte := if i < s.cfg.n then some (s.fb.read i) else none

/-- R9: `FB[i] <- v`, at an index that exists. -/
def State.writeFB (s : State) (i : Nat) (v : Byte) : State := { s with fb := s.fb.write i v }

/-- R9: `Respond(status, data)`. The response goes to the port and, as an observation, to the log. -/
def State.respond (s : State) (st : Status) (data : Byte) : State :=
  { s with response := some (rspWord st data), responses := s.responses ++ [rspWord st data] }

/-- R200, R208: `raise E` ends the request with `Respond(E, 0x00)` and `seq <- IDLE`. Nothing is saved, no mode changes
and control is transferred nowhere; there is no return operation (R209). -/
def State.raise (s : State) (e : Status) : State := { s with seq := .idle }.respond e 0x00

/-- R31 (2), R33: a transaction has been issued and answered with the first of the answers to come. -/
def State.record (s : State) (tx : Tx) (a : Answer) (later : List Answer) : State :=
  { s with answers := later, history := s.history ++ [⟨tx, a⟩] }

/-- R230: every piece of FBCORE's state at its reset value. The history, the recorded faults and the inputs are not
FBCORE's state and stay (R33, R204; log entry 4). -/
def State.resetCore (s : State) : State :=
  { s with fb := Memory.zeros, snap := Memory.zeros, seq := .idle, response := none }

end Sys2Proof.Machine
end

