-- ==== Sys2Proof/Machine/Framebuffer.lean ====
section
/-! DEFINITION. Sys2Proof/Machine/Framebuffer.lean: the framebuffer bit-packer's requests, SETPX, CLEAR and BYTEAT
(40_framebuffer.md). Each completes in its Accept step, issues no transaction and never touches SNAP. -/

namespace Sys2Proof.Machine

/-- SETPX (R100): one bit of one FB byte, or nothing when the pixel is out of bounds; the response is OK. -/
def execSetpx (x y : Int) (on : Bool) (s : State) : Outcome :=
  if inb s.cfg x y then
    match s.readFB (pixelIndex s.cfg x y) with
    | some old => .next ((s.writeFB (pixelIndex s.cfg x y) (putBit old (pixelBit y) on)).respond .ok 0x00)
    | none => .fault (.noSuchIndex (pixelIndex s.cfg x y))
  else .next (s.respond .ok 0x00)

/-- CLEAR (R101): every FB byte 0x00, in one atomic step. -/
def execClear (s : State) : Outcome := .next ({ s with fb := Memory.zeros }.respond .ok 0x00)

/-- BYTEAT (R102): the FB byte, or OUT_OF_RANGE. -/
def execByteat (idx : Nat) (s : State) : Outcome :=
  match s.readFB idx with
  | some b => .next (s.respond .ok b)
  | none => .next (s.raise .outOfRange)

end Sys2Proof.Machine
end

