-- ==== Sys2Proof/Machine/CommandAdapter.lean ====
section
/-! DEFINITION. Sys2Proof/Machine/CommandAdapter.lean: the addressing-window command sequencer (42_command_adapter.md):
the transactions of the two controller commands, WindowCmds, and the meaning of the two table rows. -/

namespace Sys2Proof.Machine

/-- R180, R181: a window value as the command byte that carries it, `v[7:0]`. -/
def windowByte (v : Nat) : Byte := BitVec.ofNat 8 v

/-- R79: the transactions of SET_COLUMN_ADDRESS, in issue order. -/
def setColumnTxs (c : Config) (sc ec : Nat) : List Tx :=
  [⟨.cmd, c.opcSetColumn⟩, ⟨.cmd, windowByte sc⟩, ⟨.cmd, windowByte ec⟩]

/-- R79: the transactions of SET_PAGE_ADDRESS, in issue order. -/
def setPageTxs (c : Config) (sp ep : Nat) : List Tx :=
  [⟨.cmd, c.opcSetPage⟩, ⟨.cmd, windowByte sp⟩, ⟨.cmd, windowByte ep⟩]

/-- R180: WindowCmds(sc, ec, sp, ep). It checks nothing (R182) and holds no state (R183). -/
def windowCmds (c : Config) (w : Window) : List Tx := setColumnTxs c w.sc w.ec ++ setPageTxs c w.sp w.ep

/-- The adapter hands transactions to the sequencer: behind those of the flush, or of the lone commands, that is in
progress. In IDLE there is none, and they become lone commands (log entry 10). -/
def State.emit (s : State) (txs : List Tx) : State :=
  match s.seq with
  | .flushing q => { s with seq := .flushing { q with txlist := q.txlist ++ txs } }
  | .commanding p => { s with seq := .commanding (p ++ txs) }
  | .idle => { s with seq := .commanding txs }

/-- SET_COLUMN_ADDRESS (R79, R180): its three command transactions, in order. -/
def execSetColumnAddress (sc ec : Nat) (s : State) : Outcome := .next (s.emit (setColumnTxs s.cfg sc ec))

/-- SET_PAGE_ADDRESS (R79, R180): its three command transactions, in order. -/
def execSetPageAddress (sp ep : Nat) (s : State) : Outcome := .next (s.emit (setPageTxs s.cfg sp ep))

end Sys2Proof.Machine
end

