-- ==== Sys2Proof/Machine/UpdateEngine.lean ====
section
/-! DEFINITION. Sys2Proof/Machine/UpdateEngine.lean: the dirty-rectangle comparator (R131 to R140) and the acceptance of
FLUSH (R134, R141) and FLUSHALL (R145, R146). -/

namespace Sys2Proof.Machine

/-- R131: the difference set, as the list of its indices in increasing order. -/
def diffSet (c : Config) (fb snap : Memory) : List Nat :=
  (List.range c.n).filter fun i => fb.read i != snap.read i

/-- The least of `a` and the members of a list. -/
def leastOf (a : Nat) (l : List Nat) : Nat := l.foldl min a

/-- The greatest of `a` and the members of a list. -/
def greatestOf (a : Nat) (l : List Nat) : Nat := l.foldl max a

/-- The window of a non-empty difference set `d` with first element `first` and last element `last`: the corner
coordinates of R135 under CORNERS (R136), the column bounds of the whole set under BOUNDING (R137). -/
def flushWindow (c : Config) (d : List Nat) (first last : Nat) : Window :=
  match c.windowPolicy with
  | .corners => { sc := column c first, ec := column c last, sp := page c first, ep := page c last }
  | .bounding =>
    { sc := leastOf (column c first) (d.map (column c)), ec := greatestOf (column c first) (d.map (column c)),
      sp := page c first, ep := page c last }

/-- R140: the stream index list, in increasing index order. -/
def streamList (c : Config) (first lastx : Nat) (w : Window) : List Nat :=
  match c.windowPolicy with
  | .corners => (List.range' first (lastx - first)).filter (inWindow c w)
  | .bounding =>
    (List.range' w.sp (w.ep + 1 - w.sp)).flatMap fun p =>
      (List.range' w.sc (w.ec + 1 - w.sc)).map fun col => p * c.pageWidth + col

/-- R141, R146: the transactions that stream the FB bytes at a list of indices. -/
def dataTxs (fb : Memory) (idxs : List Nat) : List Tx := idxs.map fun i => ⟨.data, fb.read i⟩

/-- The greatest byte index of a window whose columns and pages are in order. -/
def windowEnd (c : Config) (w : Window) : Nat := w.ep * c.pageWidth + w.ec

/-- R141, R145: the Accept step of a flush that transmits: the latches, the transaction list (the window first, R184),
`txpos <- 0`, `seq <- FLUSHING`, and no response yet. Under a well-formed configuration the window ends inside FB
(R139), and the fault is not reached. -/
def State.openFlush (s : State) (first lastx : Nat) (w : Window) (idxs : List Nat) : Outcome :=
  if windowEnd s.cfg w < s.cfg.n then
    .next { s with seq := .flushing { txlist := windowCmds s.cfg w ++ dataTxs s.fb idxs, txpos := 0, first := first,
                                      lastx := lastx, win := w } }
  else .fault (.noSuchIndex (windowEnd s.cfg w))

/-- R134: a FLUSH with no difference issues no transaction and leaves `seq` as it is. -/
def State.flushUnchanged (s : State) : State :=
  (if s.cfg.nodiffClears then { s with fb := Memory.zeros } else s).respond .ok 0x00

/-- FLUSH (R141). -/
def execFlush (s : State) : Outcome :=
  match diffSet s.cfg s.fb s.snap with
  | [] => .next s.flushUnchanged
  | first :: rest =>
    let last := (first :: rest).getLast (List.cons_ne_nil first rest)
    let w := flushWindow s.cfg (first :: rest) first last
    s.openFlush first (last + 1) w (streamList s.cfg first (last + 1) w)

/-- R145: the full window `(0, WIDTH-1, 0, PAGES-1)`. -/
def fullWindow (c : Config) : Window := { sc := 0, ec := c.width - 1, sp := 0, ep := c.pages - 1 }

/-- FLUSHALL (R145, R146). -/
def execFlushall (s : State) : Outcome := s.openFlush 0 s.cfg.n (fullWindow s.cfg) (List.range s.cfg.n)

end Sys2Proof.Machine
end

