-- ==== Sys2Proof/Machine/Dispatch.lean ====
section
/-! DEFINITION. Sys2Proof/Machine/Dispatch.lean: the meaning of each instruction, one arm each. -/

namespace Sys2Proof.Machine

def exec (i : Instr) (s : State) : Host.Outcome State Fault Refusal :=
  match i with
  | .setpx x y on => Sys2Proof.Machine.execSetpx x y on s
  | .clear => Sys2Proof.Machine.execClear s
  | .byteat idx => Sys2Proof.Machine.execByteat idx s
  | .flush => Sys2Proof.Machine.execFlush s
  | .flushall => Sys2Proof.Machine.execFlushall s
  | .setColumnAddress sc ec => Sys2Proof.Machine.execSetColumnAddress sc ec s
  | .setPageAddress sp ep => Sys2Proof.Machine.execSetPageAddress sp ep s

end Sys2Proof.Machine
end

