-- ==== Sys2Proof/Machine/Sequencer.lean ====
section
/-! DEFINITION. Sys2Proof/Machine/Sequencer.lean: the steps of a flush after its acceptance: Transact (R31 (2)), its
abort (R142) and Commit (R31 (3), R143); and the issue of lone controller commands (log entry 10). -/

namespace Sys2Proof.Machine

/-- R204, R207: the third transaction of a flush, `(CMD, ec)`, completes the issue of a window whose columns are inverted
when `SC > EC`. The fault is recorded in the step that answers that transaction (log entry 9). -/
def breaksWindowContract (q : Latches) : Bool := q.txpos == 2 && decide (q.win.ec < q.win.sc)

/-- R31 (2): Transact. The transaction at the cursor is issued and answered: OK moves the cursor on by 1, FAIL aborts
the flush with BUS_ERROR and leaves FB and SNAP as they are (R142). With no answer FBCORE waits (R190), and neither the
history nor WindowContract has the transaction: a third one that is never answered, or that a reset abandons before its
answer, records no fault (DESIGN CHOICE, log entries 9 and 16). -/
def State.transact (s : State) (q : Latches) (tx : Tx) : State :=
  match s.answers with
  | [] => s
  | a :: later =>
    let t := { s.record tx a later with windowContract := s.windowContract || breaksWindowContract q }
    match a with
    | .ok => { t with seq := .flushing { q with txpos := q.txpos + 1 } }
    | .fail => t.raise .busError

/-- R143: Commit. SNAP takes FB, then FB is cleared, in one atomic step; `seq <- IDLE` and the response is OK. -/
def State.commit (s : State) : State :=
  { s with snap := s.fb, fb := Memory.zeros, seq := .idle }.respond .ok 0x00

/-- R31: the step of FBCORE in FLUSHING: Transact while a transaction is left, then Commit. -/
def State.flushStep (s : State) (q : Latches) : State :=
  match q.txlist[q.txpos]? with
  | some tx => s.transact q tx
  | none => s.commit

/-- The step that issues lone controller commands: one transaction, as Transact does. After the last, or after a FAIL,
the phase is IDLE again; no request is outstanding, so no response is given (log entry 10). -/
def State.commandStep (s : State) : List Tx → State
  | [] => { s with seq := .idle }
  | tx :: rest =>
    match s.answers with
    | [] => s
    | .ok :: later => { s.record tx .ok later with seq := if rest.isEmpty then .idle else .commanding rest }
    | .fail :: later => { s.record tx .fail later with seq := .idle }

end Sys2Proof.Machine
end

