-- ==== Sys2Proof/Machine/Fetch.lean ====
section
/-! DEFINITION. Sys2Proof/Machine/Fetch.lean: where the next instruction comes from. FBCORE fetches nothing (R21, R65): the
host's request port supplies requests (R30), and the model's command slot a lone controller command (log entry 10). -/

namespace Sys2Proof.Machine

/-- R30, R31 (1): the request on the port has been taken. The response before it has been given and leaves the port
(log entry 5). -/
def State.takeRequest (s : State) (later : List ReqWord) : State := { s with requests := later, response := none }

/-- The command of the slot has been taken. -/
def State.takeCommand (s : State) : State := { s with command := none }

/-- R31 (1): Accept. The word is decoded before any operation rule runs (R207). An illegal word raises ILLEGAL_REQUEST
and changes nothing (R76, R203): this is the block's answer. The run that presents the word is refused by `run`, and
counts as gone wrong (R203, R217; log entry 7). -/
def State.accept (s : State) (w : ReqWord) (later : List ReqWord) : Outcome :=
  match decodeReq w with
  | .ok i => exec i (s.takeRequest later)
  | .error _ => .next ((s.takeRequest later).raise .illegalRequest)

/-- R203: the illegal word that the next step accepts, if it accepts one. -/
def State.acceptsIllegal (s : State) : Option ReqWord :=
  if s.resetLine.head? = some true then none
  else
    match s.seq, s.command, s.requests with
    | .idle, none, w :: _ =>
      match decodeReq w with
      | .ok _ => none
      | .error _ => some w
    | _, _, _ => none

/-- A lone controller command. -/
def State.runCommand (s : State) (w : CtrlWord) : Outcome :=
  match decodeCtrl s.cfg w with
  | .ok i => exec i s.takeCommand
  | .error _ => .refused (.notWindowCommand w)

/-- R31: the step that FBCORE takes when reset is not asserted. In IDLE with nothing presented it waits. -/
def State.advance (s : State) : Outcome :=
  match s.seq with
  | .flushing q => .next (s.flushStep q)
  | .commanding p => .next (s.commandStep p)
  | .idle =>
    match s.command, s.requests with
    | some w, _ => s.runCommand w
    | none, w :: later => s.accept w later
    | none, [] => .next s

end Sys2Proof.Machine
end

