-- ==== Sys2Proof/Machine/Step.lean ====
section
/-! DEFINITION. Sys2Proof/Machine/Step.lean: one step of the machine (R31), and the loading of an instruction where the
step takes its next one from. -/

namespace Sys2Proof.Machine

/-- R31: one step. The step finds the reset line asserted and resets (R230, also inside a flush, R231), or it is the
Accept, Transact or Commit that the phase calls for. An ill-formed configuration is refused (R7). -/
def step (s : State) : Host.Outcome State Fault Refusal :=
  if s.cfg.wf then
    match s.resetLine with
    | true :: later => .next { s with resetLine := later }.resetCore
    | false :: later => { s with resetLine := later }.advance
    | [] => s.advance
  else .refused .illFormedConfiguration

/-- The state with an opcode-table word where the next step takes its instruction from: a 64-bit request word first on the
request port, a 24-bit controller command in the command slot. The phase becomes IDLE and the next sample of the reset
line not asserted, so that the very next step runs that instruction (log entry 14). -/
def State.withFetchWord (s : State) (nbits w : Nat) : State :=
  if nbits = 24 then
    { s with seq := .idle, resetLine := false :: s.resetLine, command := some (BitVec.ofNat 24 w) }
  else
    { s with seq := .idle, resetLine := false :: s.resetLine, command := none,
             requests := BitVec.ofNat 64 w :: s.requests }

end Sys2Proof.Machine
end

