-- ==== Sys2Proof/Machine/Assembler.lean ====
section
/-! DEFINITION. Sys2Proof/Machine/Assembler.lean: the assembly syntax of request sequences (R81) with its two
pseudo-instructions (R82), from characters to request words. It is notation for the host, no part of FBCORE. -/

namespace Sys2Proof.Machine

/-- Why a line is no assembly. -/
inductive AsmError where
  /-- The first word of the line is no mnemonic of R81 or R82. -/
  | unknownMnemonic
  /-- The operands are not those of the mnemonic in number or form. -/
  | badOperands
  /-- An operand outside its range: "an assembly error, not an encoding" (R81). -/
  | outOfRange
  deriving DecidableEq, Repr

/-- Blank characters within a line. -/
def asmBlank (ch : Char) : Bool := ch == ' ' || ch == '\t' || ch == '\r'

/-- A list cut at every occurrence of a separator. -/
def cutAt (sep : Char) : List Char → List (List Char)
  | [] => [[]]
  | ch :: rest =>
    if ch == sep then [] :: cutAt sep rest
    else
      match cutAt sep rest with
      | [] => [[ch]]
      | part :: parts => (ch :: part) :: parts

/-- Without the blanks at either end. -/
def asmTrim (l : List Char) : List Char := ((l.dropWhile asmBlank).reverse.dropWhile asmBlank).reverse

/-- The value of a decimal digit. -/
def decDigit (ch : Char) : Option Nat :=
  if 48 ≤ ch.toNat ∧ ch.toNat ≤ 57 then some (ch.toNat - 48) else none

/-- The value of a hexadecimal digit of either case. -/
def hexDigit (ch : Char) : Option Nat :=
  if 48 ≤ ch.toNat ∧ ch.toNat ≤ 57 then some (ch.toNat - 48)
  else if 65 ≤ ch.toNat ∧ ch.toNat ≤ 70 then some (ch.toNat - 55)
  else if 97 ≤ ch.toNat ∧ ch.toNat ≤ 102 then some (ch.toNat - 87)
  else none

/-- A number from its digits, most significant first, behind the value read so far. -/
def digitsFrom (base : Nat) (digit : Char → Option Nat) : Nat → List Char → Option Nat
  | acc, [] => some acc
  | acc, ch :: rest =>
    match digit ch with
    | some d => digitsFrom base digit (acc * base + d) rest
    | none => none

/-- R81: a decimal or `0x` hexadecimal natural number. -/
def asmNat : List Char → Option Nat
  | [] => none
  | ch :: rest =>
    match ch, rest with
    | '0', 'x' :: d :: ds => digitsFrom 16 hexDigit 0 (d :: ds)
    | ch, rest => digitsFrom 10 decDigit 0 (ch :: rest)

/-- R81: a decimal or `0x` hexadecimal integer, optionally negative. -/
def asmInt : List Char → Option Int
  | '-' :: rest => (asmNat rest).map fun (v : Nat) => -(v : Int)
  | l => (asmNat l).map fun (v : Nat) => (v : Int)

/-- R81: the pixel value, `0` or `1`. -/
def asmOn : List Char → Option Bool
  | ['0'] => some false
  | ['1'] => some true
  | _ => none

/-- A parsed instruction, when its operands are in range. -/
def asmRange (i : Instr) : Except AsmError (Option Instr) := if i.wf then .ok (some i) else .error .outOfRange

/-- SETPX with the operands as written. -/
def asmPixel (x y on : List Char) : Except AsmError (Option Instr) :=
  match asmInt x, asmInt y, asmOn on with
  | some x, some y, some on => asmRange (.setpx x y on)
  | _, _, _ => .error .badOperands

/-- R81, R82: the instruction of a mnemonic (in capitals) and its operands. -/
def asmInstr (mnemonic : List Char) (operands : List (List Char)) : Except AsmError (Option Instr) :=
  if mnemonic = ['S', 'E', 'T', 'P', 'X'] then
    match operands with
    | [x, y, on] => asmPixel x y on
    | _ => .error .badOperands
  else if mnemonic = ['P', 'X', 'O', 'N'] then
    match operands with
    | [x, y] => asmPixel x y ['1']
    | _ => .error .badOperands
  else if mnemonic = ['P', 'X', 'O', 'F', 'F'] then
    match operands with
    | [x, y] => asmPixel x y ['0']
    | _ => .error .badOperands
  else if mnemonic = ['B', 'Y', 'T', 'E', 'A', 'T'] then
    match operands with
    | [idx] =>
      match asmNat idx with
      | some v => asmRange (.byteat v)
      | none => .error .badOperands
    | _ => .error .badOperands
  else if mnemonic = ['C', 'L', 'E', 'A', 'R'] then
    if operands = [[]] then .ok (some .clear) else .error .badOperands
  else if mnemonic = ['F', 'L', 'U', 'S', 'H'] then
    if operands = [[]] then .ok (some .flush) else .error .badOperands
  else if mnemonic = ['F', 'L', 'U', 'S', 'H', 'A', 'L', 'L'] then
    if operands = [[]] then .ok (some .flushall) else .error .badOperands
  else .error .unknownMnemonic

/-- R81: one line, one request, a `;` comment to the end of the line, the mnemonic in either case. A line that is blank, or
blank but for its comment, gives no request and no error: R81 is silent on it (DESIGN CHOICE, log entry 22). -/
def asmLine (line : List Char) : Except AsmError (Option Instr) :=
  let code := asmTrim (line.takeWhile (· != ';'))
  let mnemonic := (code.takeWhile fun ch => !asmBlank ch).map Char.toUpper
  let operands := (cutAt ',' (code.dropWhile fun ch => !asmBlank ch)).map asmTrim
  if code = [] then .ok none else asmInstr mnemonic operands

/-- The request words of a line's instruction: one, or none for a line without an instruction. -/
def asmWords : Option Instr → Except AsmError (List ReqWord)
  | none => .ok []
  | some i =>
    match encode Config.default i with
    | .req w => .ok [w]
    | .ctrl _ => .error .unknownMnemonic

/-- The request words of lines, in order; the first error ends it. -/
def asmLines : List (List Char) → Except AsmError (List ReqWord)
  | [] => .ok []
  | line :: rest =>
    match (asmLine line).bind asmWords, asmLines rest with
    | .error e, _ => .error e
    | .ok _, .error e => .error e
    | .ok u, .ok ws => .ok (u ++ ws)

/-- R81: an assembly text as the request words it stands for. -/
def assemble (text : List Char) : Except AsmError (List ReqWord) := asmLines (cutAt '\n' text)

end Sys2Proof.Machine
end

