-- ==== Sys2Proof/Safety.lean ====
section
/-! DEFINITION. Sys2Proof/Safety.lean: what counts as a run gone wrong (R217), the invariant of the machine (R35, R138,
R139, R144, R184), and the terms that claims are stated in. -/

namespace Sys2Proof.Machine

/-- R217: a run has gone wrong when an OUT_OF_RANGE response (R202), an ILLEGAL_REQUEST (R203) or a WindowContract fault
(R204) is recorded. A BUS_ERROR response is a normal outcome. -/
def State.goneWrong (s : State) : Bool :=
  s.windowContract
    || s.responses.any fun r => rspStatus r == statusCode .outOfRange || rspStatus r == statusCode .illegalRequest

/-- A run of `k` steps, stopping at the first fault or refusal. A run that presents an illegal word is refused, at the step
that accepts the word (R203; log entry 7). -/
def run : Nat → State → Outcome
  | 0, s => .next s
  | k + 1, s =>
    match step s with
    | .next t =>
      match s.acceptsIllegal with
      | some w => .refused (.illegalRequest w)
      | none => run k t
    | .fault r => .fault r
    | .refused r => .refused r

/-- The reset line is not asserted at the next step. -/
def State.noReset (s : State) : Prop := s.resetLine.head? ≠ some true

/-- The state once the step has sampled the reset line. -/
def State.sampled (s : State) : State := { s with resetLine := s.resetLine.tail }

/-- The same state of an instance built with another window policy (R6). -/
def State.withPolicy (s : State) (p : WindowPolicy) : State := { s with cfg := { s.cfg with windowPolicy := p } }

/-- R131: index `i` belongs to the difference set. -/
def State.differsAt (s : State) (i : Nat) : Prop := i < s.cfg.n ∧ s.fb.read i ≠ s.snap.read i

/-- R77: a response word that FBCORE may give: one of the four statuses, and 0x00 beside a status other than OK. -/
def legalResponse (r : RspWord) : Prop := ∃ st d, r = rspWord st d ∧ (st ≠ .ok → d = 0x00)

/-- The shape of the sequencer during FLUSHING: the cursor within the list (R35), the latches in their ranges (R139), the
pages in order (R138), under BOUNDING the columns too (R151), and the list made of the window commands followed by the
bytes that FB holds now, at rising indices (R140, R144, R184). -/
structure FlushShape (c : Config) (fb : Memory) (q : Latches) : Prop where
  cursor : q.txpos ≤ q.txlist.length
  ordered : q.first < q.lastx
  bounded : q.lastx ≤ c.n
  startColumn : q.win.sc ≤ c.maxCol
  endColumn : q.win.ec ≤ c.maxCol
  pages : q.win.sp ≤ q.win.ep
  endPage : q.win.ep ≤ c.maxPage
  columns : c.windowPolicy = .bounding → q.win.sc ≤ q.win.ec
  list : ∃ idxs : List Nat, idxs.Pairwise (· < ·) ∧ (∀ i ∈ idxs, i < c.n) ∧
    q.txlist = windowCmds c q.win ++ dataTxs fb idxs

/-- What the phase asks of the state: nothing in IDLE; in FLUSHING no response yet (R30) and the shape of the sequencer.
The model's own phase of lone commands is ruled out. -/
def State.seqOk (s : State) : Prop :=
  match s.seq with
  | .idle => True
  | .flushing q => s.response = none ∧ FlushShape s.cfg s.fb q
  | .commanding _ => False

/-- The invariant of the machine (R35): a well-formed configuration, both memories canonical and within `0 .. N-1`, an
empty command slot, a legal phase, and only legal responses given. -/
structure State.Inv (s : State) : Prop where
  cfg : s.cfg.wf = true
  fbForm : s.fb.wf = true
  fbSize : s.fb.within s.cfg.n = true
  snapForm : s.snap.wf = true
  snapSize : s.snap.within s.cfg.n = true
  slot : s.command = none
  phase : s.seqOk
  legal : ∀ r ∈ s.responses, legalResponse r

end Sys2Proof.Machine
end

