-- ==== Sys2Proof/Certificates/Slice0/Obligations.lean ====
section
/-! DEFINITION. Sys2Proof/Certificates/Slice0/Obligations.lean: the statements about FBCORE, from the numbered rules of
spec/. Column and page of an index are written out as `i % PAGE_WIDTH` and `i / PAGE_WIDTH` (R54), and response words as
numbers: 0x0000 OK, 0x0100 BUS_ERROR, 0x0200 OUT_OF_RANGE, 0x0300 ILLEGAL_REQUEST (R77). -/

open Sys2Proof Sys2Proof.Machine

/-! ## Reset -/

/-- R34: the state after reset, for every configuration: FB and SNAP all 0x00, IDLE (so no latch exists), no pending
response; `State.reset` is that of the parameters of R6. -/
def Obligations.ResetStateHasTheTableValues : Prop :=
  State.reset = State.fresh Config.default ∧
  ∀ c : Config, (∀ i, (State.fresh c).fb.read i = 0x00) ∧ (∀ i, (State.fresh c).snap.read i = 0x00) ∧
    (State.fresh c).seq = .idle ∧ (State.fresh c).response = none

/-- R230, R231: a step that finds reset asserted, in any phase and so also inside a flush: the reset values, no
transaction, no response, and the history and the recorded faults as they were. (That the reset line is sampled once a step
and that the transport's answers to come survive is the model's choice, log entry 4; that the log of responses survives is
the model's reading, log entry 6.) -/
def Obligations.ResetStepRestoresTheResetValues : Prop :=
  ∀ (s : State) (later : List Bool), s.cfg.wf = true → s.resetLine = true :: later →
    ∃ t, step s = .next t ∧ (∀ i, t.fb.read i = 0x00) ∧ (∀ i, t.snap.read i = 0x00) ∧ t.seq = .idle ∧
      t.response = none ∧ t.history = s.history ∧ t.answers = s.answers ∧ t.responses = s.responses ∧
      t.windowContract = s.windowContract ∧ t.cfg = s.cfg

/-- R35: the invariant holds of a fresh instance of every well-formed configuration. -/
def Obligations.ResetMeetsTheInvariant : Prop :=
  State.reset.Inv ∧ ∀ c : Config, c.wf = true → (State.fresh c).Inv

/-! ## The machine as a whole -/

/-- R35, R138, R139, R144, R184: every step keeps the invariant, from every state that meets it, whatever the host and the
transport do. -/
def Obligations.StepKeepsTheInvariant : Prop :=
  ∀ s t : State, s.Inv → step s = .next t → t.Inv

/-- R31, R200: from a state that meets the invariant no step stops with a fault or a refusal. -/
def Obligations.StepAlwaysAnswersANextState : Prop :=
  ∀ s : State, s.Inv → ∃ t, step s = .next t

/-- R6, R23: no step changes the configuration. -/
def Obligations.StepKeepsTheConfiguration : Prop :=
  ∀ s t : State, step s = .next t → t.cfg = s.cfg

/-- R26: SNAP is written by the Commit, which copies FB, and by a reset, and by nothing else. -/
def Obligations.OnlyCommitAndResetWriteSnap : Prop :=
  ∀ s t : State, step s = .next t → t.snap ≠ s.snap →
    s.resetLine.head? = some true ∨
      ∃ q, s.seq = .flushing q ∧ q.txlist.length ≤ q.txpos ∧ t.snap = s.fb

/-- R144: while a flush has a transaction left, no step but a reset writes FB or SNAP. -/
def Obligations.BuffersAreStableDuringAFlush : Prop :=
  ∀ (s t : State) (q : Latches), s.seq = .flushing q → q.txpos < q.txlist.length → s.noReset → step s = .next t →
    t.fb = s.fb ∧ t.snap = s.snap

/-- R62, R33: a step issues no transaction, or exactly the one at the cursor of the flush, with the transport's answer
recorded. -/
def Obligations.AStepIssuesAtMostTheTransactionAtTheCursor : Prop :=
  ∀ s t : State, s.Inv → step s = .next t →
    t.history = s.history ∨
      ∃ q tx a, s.seq = .flushing q ∧ q.txlist[q.txpos]? = some tx ∧ s.answers.head? = some a ∧
        t.history = s.history ++ [⟨tx, a⟩]

/-- R77, R31: a step gives no response or one, of a legal status; its DATA is 0x00 unless the request is a BYTEAT that
ends OK. -/
def Obligations.AStepGivesAtMostOneLegalResponse : Prop :=
  ∀ s t : State, step s = .next t →
    t.responses = s.responses ∨
      ∃ st d, t.responses = s.responses ++ [rspWord st d] ∧ t.response = some (rspWord st d) ∧
        (d ≠ 0x00 → st = .ok ∧ ∃ w later idx, s.requests = w :: later ∧ decodeReq w = .ok (.byteat idx) ∧
          idx < s.cfg.n ∧ d = s.fb.read idx)

/-- R30: a request presented while a flush is in progress is held: no Transact step, no abort and no Commit takes it from
the port. -/
def Obligations.RequestsAreHeldWhileFlushing : Prop :=
  ∀ (s t : State) (q : Latches), s.seq = .flushing q → s.noReset → step s = .next t → t.requests = s.requests

/-- R204, R207: WindowContract is sticky, also across a reset; and it is recorded only by a Transact step of a flush under
CORNERS whose window is inverted. (That this step has the transaction answered and enters it in the history, while R204 and
R207 speak of issuing, is the model's choice, log entries 9 and 16.) -/
def Obligations.WindowContractIsStickyAndOnlyForInvertedCorners : Prop :=
  ∀ s t : State, step s = .next t →
    (s.windowContract = true → t.windowContract = true) ∧
    (s.Inv → s.windowContract = false → t.windowContract = true →
      s.cfg.windowPolicy = .corners ∧ ∃ q tx a, s.seq = .flushing q ∧ q.win.ec < q.win.sc ∧
        q.txlist[q.txpos]? = some tx ∧ t.history = s.history ++ [⟨tx, a⟩])

/-- R217: a run goes wrong in a step only by an illegal request, a BYTEAT out of range, or an inverted window. A bus
failure is none of them. -/
def Obligations.ARunGoesWrongOnlyInTheThreeListedWays : Prop :=
  ∀ s t : State, s.Inv → step s = .next t → s.goneWrong = false → t.goneWrong = true →
    (∃ w later e, s.seq = .idle ∧ s.requests = w :: later ∧ decodeReq w = .error e) ∨
    (∃ w later idx, s.seq = .idle ∧ s.requests = w :: later ∧ decodeReq w = .ok (.byteat idx) ∧ s.cfg.n ≤ idx) ∨
    (∃ q, s.seq = .flushing q ∧ q.win.ec < q.win.sc)

/-! ## Encodings -/

/-- R70, R73, R74, R79: decoding the encoding of a well-formed instruction gives it back, for all seven rows of the
opcode table, every operand, every configuration. -/
def Obligations.DecodeOfEncodeIsTheInstruction : Prop :=
  ∀ (c : Config) (i : Instr), c.wf = true → i.wf = true → decode c (encode c i) = .ok i

/-- R75, R80: a word that decodes is the encoding of the well-formed instruction it decodes to, so no instruction has two
words. -/
def Obligations.EncodeOfDecodeIsTheWord : Prop :=
  ∀ (c : Config) (w : Encoded) (i : Instr), decode c w = .ok i → i.wf = true ∧ encode c i = w

/-- R75, R76: a word decodes to a request exactly when it matches the mask and pattern of that request's row of the
opcode table; likewise the two controller commands under the default opcodes. -/
def Obligations.DecoderAcceptsExactlyTheTableRows : Prop :=
  (∀ w : ReqWord,
    ((∃ x y on, decodeReq w = .ok (.setpx x y on)) ↔ w &&& 0xFFFEFFFF00000000 = 0x0100000000000000) ∧
    (decodeReq w = .ok .clear ↔ w &&& 0xFFFFFFFFFFFFFFFF = 0x0200000000000000) ∧
    ((∃ idx, decodeReq w = .ok (.byteat idx)) ↔ w &&& 0xFFFFFFFF00000000 = 0x0300000000000000) ∧
    (decodeReq w = .ok .flush ↔ w &&& 0xFFFFFFFFFFFFFFFF = 0x0400000000000000) ∧
    (decodeReq w = .ok .flushall ↔ w &&& 0xFFFFFFFFFFFFFFFF = 0x0500000000000000)) ∧
  (∀ w : CtrlWord,
    ((∃ sc ec, decodeCtrl Config.default w = .ok (.setColumnAddress sc ec)) ↔ w &&& 0xFF0000 = 0x210000) ∧
    ((∃ sp ep, decodeCtrl Config.default w = .ok (.setPageAddress sp ep)) ↔ w &&& 0xFF0000 = 0x220000))

/-- R72, R73, R74: the operands of a decoded request: `on` is bit 48, the coordinates are the 16-bit two's-complement
values of bits 15:0 and 31:16, the index is the unsigned value of bits 31:0. -/
def Obligations.DecodedOperandsAreTheFieldValues : Prop :=
  ∀ w : ReqWord,
    (∀ x y on, decodeReq w = .ok (.setpx x y on) →
      on = w.getLsbD 48 ∧ -32768 ≤ x ∧ x ≤ 32767 ∧ x % 65536 = ((w.toNat % 65536 : Nat) : Int) ∧
      -32768 ≤ y ∧ y ≤ 32767 ∧ y % 65536 = ((w.toNat / 65536 % 65536 : Nat) : Int)) ∧
    (∀ idx, decodeReq w = .ok (.byteat idx) → idx = w.toNat % 2 ^ 32)

/-- R83: the ten encoding examples of the spec, each assembly line, its instruction and its word: the line assembles to the
word, the instruction encodes to it, and the word decodes to the instruction. -/
def Obligations.EncodingExamplesOfTheSpec : Prop :=
  ∀ p ∈ ([("SETPX 45, 23, 1", .setpx 45 23 true, 0x010100000017002D),
          ("SETPX 45, 23, 0", .setpx 45 23 false, 0x010000000017002D),
          ("SETPX -1, 0, 1", .setpx (-1) 0 true, 0x010100000000FFFF),
          ("SETPX 127, 63, 1", .setpx 127 63 true, 0x01010000003F007F),
          ("SETPX 128, 0, 1", .setpx 128 0 true, 0x0101000000000080),
          ("BYTEAT 301", .byteat 301, 0x030000000000012D),
          ("BYTEAT 1024", .byteat 1024, 0x0300000000000400),
          ("CLEAR", .clear, 0x0200000000000000), ("FLUSH", .flush, 0x0400000000000000),
          ("FLUSHALL", .flushall, 0x0500000000000000)] : List (String × Instr × ReqWord)),
    assemble p.1.toList = .ok [p.2.2] ∧ encode Config.default p.2.1 = .req p.2.2 ∧ decodeReq p.2.2 = .ok p.2.1

/-- R77, R78: the codes of transactions and responses: the kind bit CMD = 0 and DATA = 1; STATUS in bits 15:8 with the four
codes, DATA in bits 7:0. (That the kind bit stands above the byte, in bit 8, is the model's choice, log entry 21.) -/
def Obligations.TransactionAndResponseCodes : Prop :=
  (∀ b : Byte, (Tx.encode ⟨.cmd, b⟩).toNat = b.toNat ∧ (Tx.encode ⟨.data, b⟩).toNat = 256 + b.toNat) ∧
  (∀ t : Tx, decodeTx t.encode = t) ∧
  (∀ d : Byte, (rspWord .ok d).toNat = d.toNat ∧ (rspWord .busError d).toNat = 0x0100 + d.toNat ∧
    (rspWord .outOfRange d).toNat = 0x0200 + d.toNat ∧ (rspWord .illegalRequest d).toNat = 0x0300 + d.toNat) ∧
  (∀ st d, rspStatus (rspWord st d) = statusCode st ∧ rspData (rspWord st d) = d)

/-- R81: an assembled text consists of legal request words only. (That an operand outside its range is an error is
`AssemblerRefusesOperandsOutOfRange`.) -/
def Obligations.AssembledWordsAreLegalRequests : Prop :=
  ∀ (text : List Char) (ws : List ReqWord), assemble text = .ok ws →
    ∀ w ∈ ws, ∃ i, decodeReq w = .ok i ∧ i.wf = true

/-! ## Acceptance of requests -/

/-- R30, R31: when reset is not asserted, the phase is IDLE and the request on the port decodes to an instruction, the step
is that instruction's meaning at the state with the request taken from the port, the previous response gone from it, and
the reset line sampled. (The lifetime of the previous response is the model's choice, log entry 5; the sampled reset line
and the empty command slot are the model's, log entries 4 and 10.) -/
def Obligations.StepRunsThePresentedRequest : Prop :=
  ∀ (s : State) (w : ReqWord) (later : List ReqWord) (i : Instr), s.cfg.wf = true → s.noReset → s.seq = .idle →
    s.command = none → s.requests = w :: later → decodeReq w = .ok i →
    step s = exec i { s with resetLine := s.resetLine.tail, requests := later, response := none }

/-- R76, R77: an illegal word on the port is answered 0x0300, and nothing but the response changes. (That the
step answers it as the block does, and the run is what is refused, is the model's choice, log entry 7.) -/
def Obligations.IllegalWordIsAnsweredAndChangesNothing : Prop :=
  ∀ (s : State) (w : ReqWord) (later : List ReqWord) (e : Reject), s.cfg.wf = true → s.noReset → s.seq = .idle →
    s.command = none → s.requests = w :: later → decodeReq w = .error e →
    step s = .next { s with resetLine := s.resetLine.tail, requests := later, response := some 0x0300,
                            responses := s.responses ++ [0x0300] }

/-- R31, R232: in IDLE with nothing presented FBCORE waits. (The sampled reset line is the model's, log entry 4.) -/
def Obligations.IdleWaitsForARequest : Prop :=
  ∀ s : State, s.cfg.wf = true → s.noReset → s.seq = .idle → s.command = none → s.requests = [] →
    step s = .next { s with resetLine := s.resetLine.tail }

/-- When reset is not asserted and the phase is IDLE, a controller command (R79) in the command slot runs as its own meaning,
at the state with the slot empty and the reset line sampled. (The slot and this whole step are the model's own, log entry
10: R31 has no such step. The sampled reset line is log entry 4.) -/
def Obligations.StepRunsTheLoneCommand : Prop :=
  ∀ (s : State) (w : CtrlWord) (i : Instr), s.cfg.wf = true → s.noReset → s.seq = .idle → s.command = some w →
    decodeCtrl s.cfg w = .ok i →
    step s = exec i { s with resetLine := s.resetLine.tail, command := none }

/-! ## SETPX, CLEAR, BYTEAT -/

/-- R103, R51: on an in-bounds pixel SETPX makes bit `y mod 8` of byte `x + (y/8)*WIDTH` equal `on` and changes no other
bit of FB, nor anything else but the response, which is OK. -/
def Obligations.SetpxWritesOneBitOfFb : Prop :=
  ∀ (s : State) (x y : Int) (on : Bool), s.cfg.wf = true → s.fb.wf = true →
    0 ≤ x → x < s.cfg.width → 0 ≤ y → y < s.cfg.height →
    ∃ t, exec (.setpx x y on) s = .next t ∧
      (∀ i b, b < 8 → (t.fb.read i).getLsbD b =
        if i = x.toNat + y.toNat / 8 * s.cfg.width ∧ b = y.toNat % 8 then on else (s.fb.read i).getLsbD b) ∧
      t = { s with fb := t.fb, response := some 0x0000, responses := s.responses ++ [0x0000] }

/-- R104, R205: on an out-of-bounds pixel SETPX changes nothing but the response, which is OK. -/
def Obligations.SetpxOutOfBoundsChangesNothing : Prop :=
  ∀ (s : State) (x y : Int) (on : Bool), ¬ (0 ≤ x ∧ x < s.cfg.width ∧ 0 ≤ y ∧ y < s.cfg.height) →
    exec (.setpx x y on) s = .next { s with response := some 0x0000, responses := s.responses ++ [0x0000] }

/-- R100: setting a set bit, or clearing a clear one, leaves FB as it is. -/
def Obligations.SetpxOfThePresentValueLeavesFb : Prop :=
  ∀ (s : State) (x y : Int) (on : Bool), s.cfg.wf = true → s.fb.wf = true → inb s.cfg x y = true →
    (s.fb.read (x.toNat + y.toNat / 8 * s.cfg.width)).getLsbD (y.toNat % 8) = on →
    exec (.setpx x y on) s = .next { s with response := some 0x0000, responses := s.responses ++ [0x0000] }

/-- R105: SETPX requests on distinct pixels commute: either order completes, in the same state. Pixels out of bounds are
included. -/
def Obligations.SetpxOnDistinctPixelsCommute : Prop :=
  ∀ (s : State) (x y x' y' : Int) (on on' : Bool), s.cfg.wf = true → s.fb.wf = true → (x, y) ≠ (x', y') →
    ∃ s1 s2 t, exec (.setpx x y on) s = .next s1 ∧ exec (.setpx x' y' on') s1 = .next t ∧
      exec (.setpx x' y' on') s = .next s2 ∧ exec (.setpx x y on) s2 = .next t

/-- R105, R54: every byte index and bit is the place of exactly one in-bounds pixel, the one the spec gives. -/
def Obligations.EveryBitIsExactlyOnePixel : Prop :=
  ∀ (c : Config) (i b : Nat), c.wf = true → i < c.n → b < 8 → ∀ x y : Int,
    (inb c x y = true ∧ pixelIndex c x y = i ∧ pixelBit y = b) ↔
      (x = ((i % c.width : Nat) : Int) ∧ y = ((8 * (i / c.width) + b : Nat) : Int))

/-- R101: CLEAR writes 0x00 to every FB byte and changes nothing else but the response, which is OK. -/
def Obligations.ClearZeroesEveryByteOfFb : Prop :=
  ∀ s : State, ∃ t, exec .clear s = .next t ∧ (∀ i, t.fb.read i = 0x00) ∧
    t = { s with fb := t.fb, response := some 0x0000, responses := s.responses ++ [0x0000] }

/-- R102, R202: BYTEAT answers OK with the FB byte below N, and OUT_OF_RANGE from N on; nothing else changes. -/
def Obligations.ByteatReadsFbOrAnswersOutOfRange : Prop :=
  ∀ (s : State) (idx : Nat), s.seq = .idle →
    (idx < s.cfg.n → exec (.byteat idx) s =
      .next { s with response := some ((0x00 : Byte) ++ s.fb.read idx),
                     responses := s.responses ++ [(0x00 : Byte) ++ s.fb.read idx] }) ∧
    (s.cfg.n ≤ idx → exec (.byteat idx) s =
      .next { s with response := some 0x0200, responses := s.responses ++ [0x0200] })

/-- R103: a SETPX request followed by a BYTEAT request of its byte reads the bit back, in two steps of the machine. -/
def Obligations.PixelReadsBackThroughTheRequestPort : Prop :=
  ∀ (s : State) (x y : Int) (on : Bool) (w w' : ReqWord) (later : List ReqWord), s.Inv → s.seq = .idle →
    (∀ r ∈ s.resetLine, r = false) → inb s.cfg x y = true → s.requests = w :: w' :: later →
    decodeReq w = .ok (.setpx x y on) → decodeReq w' = .ok (.byteat (x.toNat + y.toNat / 8 * s.cfg.width)) →
    ∃ t r, run 2 s = .next t ∧ t.response = some r ∧ rspStatus r = 0x00 ∧
      (rspData r).getLsbD (y.toNat % 8) = on ∧ t.requests = later ∧ t.snap = s.snap ∧ t.history = s.history

/-! ## FLUSH and FLUSHALL: acceptance -/

/-- R134: a FLUSH that finds no difference issues no transaction, keeps the phase and answers OK; FB is cleared only under
`NODIFF_CLEARS`. -/
def Obligations.FlushWithoutDifferenceIssuesNothing : Prop :=
  ∀ s : State, (∀ i < s.cfg.n, s.fb.read i = s.snap.read i) →
    exec .flush s = .next { s with fb := if s.cfg.nodiffClears then Memory.zeros else s.fb, response := some 0x0000,
                                   responses := s.responses ++ [0x0000] }

/-- R132, R133, R141: a FLUSH that finds a difference starts FLUSHING with the cursor at 0 and changes nothing else;
`FIRST` is the least differing index, `LASTX` one past the greatest; `FIRST = LASTX - 1` exactly for one difference. -/
def Obligations.FlushLatchesTheFirstAndLastDifference : Prop :=
  ∀ s : State, s.cfg.wf = true → (∃ k, s.differsAt k) →
    ∃ q, exec .flush s = .next { s with seq := .flushing q } ∧ q.txpos = 0 ∧
      s.differsAt q.first ∧ (∀ i, s.differsAt i → q.first ≤ i) ∧
      (∃ m, q.lastx = m + 1 ∧ s.differsAt m ∧ ∀ i, s.differsAt i → i ≤ m) ∧ q.first < q.lastx ∧
      (q.first + 1 = q.lastx ↔ ∀ i j, s.differsAt i → s.differsAt j → i = j)

/-- R135, R136: under CORNERS the window of a FLUSH is the corner coordinates of the first and of the last difference. -/
def Obligations.FlushWindowUnderCorners : Prop :=
  ∀ s : State, s.cfg.wf = true → s.cfg.windowPolicy = .corners → (∃ k, s.differsAt k) →
    ∃ q, exec .flush s = .next { s with seq := .flushing q } ∧
      ∃ f l, s.differsAt f ∧ s.differsAt l ∧ (∀ i, s.differsAt i → f ≤ i ∧ i ≤ l) ∧
        q.win = { sc := f % s.cfg.pageWidth, ec := l % s.cfg.pageWidth,
                  sp := f / s.cfg.pageWidth, ep := l / s.cfg.pageWidth }

/-- R137: under BOUNDING the window's columns are the least and the greatest column of the difference set, its pages those
of the first and of the last difference. -/
def Obligations.FlushWindowUnderBounding : Prop :=
  ∀ s : State, s.cfg.wf = true → s.cfg.windowPolicy = .bounding → (∃ k, s.differsAt k) →
    ∃ q, exec .flush s = .next { s with seq := .flushing q } ∧
      (∃ i, s.differsAt i ∧ i % s.cfg.pageWidth = q.win.sc) ∧
      (∃ i, s.differsAt i ∧ i % s.cfg.pageWidth = q.win.ec) ∧
      (∀ i, s.differsAt i → q.win.sc ≤ i % s.cfg.pageWidth ∧ i % s.cfg.pageWidth ≤ q.win.ec) ∧
      ∃ f l, s.differsAt f ∧ s.differsAt l ∧ (∀ i, s.differsAt i → f ≤ i ∧ i ≤ l) ∧
        q.win.sp = f / s.cfg.pageWidth ∧ q.win.ep = l / s.cfg.pageWidth

/-- R138: pages do not decrease with the index, and the window's pages are the least and the greatest page of the
difference set, under both policies, so they are in order; only the columns can be inverted, and only under CORNERS. -/
def Obligations.FlushPagesAreTheBoundsOfTheDifferences : Prop :=
  ∀ s : State, s.cfg.wf = true → (∃ k, s.differsAt k) →
    (∀ i j, i ≤ j → i / s.cfg.pageWidth ≤ j / s.cfg.pageWidth) ∧
    ∃ q, exec .flush s = .next { s with seq := .flushing q } ∧
      (∃ i, s.differsAt i ∧ i / s.cfg.pageWidth = q.win.sp) ∧
      (∃ i, s.differsAt i ∧ i / s.cfg.pageWidth = q.win.ep) ∧
      (∀ i, s.differsAt i → q.win.sp ≤ i / s.cfg.pageWidth ∧ i / s.cfg.pageWidth ≤ q.win.ep) ∧
      q.win.sp ≤ q.win.ep ∧ (s.cfg.windowPolicy = .bounding → q.win.sc ≤ q.win.ec)

/-- R140, R141, R180: the transaction list of a FLUSH is the six window commands, each window value as its byte, followed
by the FB bytes at rising indices: under CORNERS the indices from `FIRST` to before `LASTX` that lie in the window, under
BOUNDING all indices of the window. -/
def Obligations.FlushTransactionListIsWindowThenStream : Prop :=
  ∀ s : State, s.cfg.wf = true → (∃ k, s.differsAt k) →
    ∃ (q : Latches) (idxs : List Nat), exec .flush s = .next { s with seq := .flushing q } ∧
      q.txlist = [⟨.cmd, s.cfg.opcSetColumn⟩, ⟨.cmd, BitVec.ofNat 8 q.win.sc⟩, ⟨.cmd, BitVec.ofNat 8 q.win.ec⟩,
                  ⟨.cmd, s.cfg.opcSetPage⟩, ⟨.cmd, BitVec.ofNat 8 q.win.sp⟩, ⟨.cmd, BitVec.ofNat 8 q.win.ep⟩]
                 ++ idxs.map (fun i => ⟨.data, s.fb.read i⟩) ∧
      idxs.Pairwise (· < ·) ∧
      (∀ i, i ∈ idxs ↔
        (s.cfg.windowPolicy = .corners → q.first ≤ i ∧ i < q.lastx) ∧
        q.win.sc ≤ i % s.cfg.pageWidth ∧ i % s.cfg.pageWidth ≤ q.win.ec ∧
        q.win.sp ≤ i / s.cfg.pageWidth ∧ i / s.cfg.pageWidth ≤ q.win.ep)

/-- R145, R146: the acceptance of a FLUSHALL: the full window, then every FB byte in index order, `6 + N` transactions,
and nothing else changes. -/
def Obligations.FlushallListsTheWholeBuffer : Prop :=
  ∀ s : State, s.cfg.wf = true →
    ∃ q, exec .flushall s = .next { s with seq := .flushing q } ∧
      q.txpos = 0 ∧ q.first = 0 ∧ q.lastx = s.cfg.n ∧
      q.win = { sc := 0, ec := s.cfg.width - 1, sp := 0, ep := s.cfg.pages - 1 } ∧
      q.txlist = windowCmds s.cfg q.win ++ (List.range s.cfg.n).map (fun i => ⟨.data, s.fb.read i⟩) ∧
      q.txlist.length = 6 + s.cfg.n

/-- R79: WindowCmds is the three bytes of the SET_COLUMN_ADDRESS word in issue order (bits 23:16, 15:8, 7:0), then those of
the SET_PAGE_ADDRESS word. -/
def Obligations.WindowCommandsAreTheTwoControllerCommands : Prop :=
  ∀ (c : Config) (w : Window), ∃ u v : CtrlWord,
    encode c (.setColumnAddress w.sc w.ec) = .ctrl u ∧ encode c (.setPageAddress w.sp w.ep) = .ctrl v ∧
    windowCmds c w =
      [⟨.cmd, u.extractLsb' 16 8⟩, ⟨.cmd, u.extractLsb' 8 8⟩, ⟨.cmd, u.extractLsb' 0 8⟩,
       ⟨.cmd, v.extractLsb' 16 8⟩, ⟨.cmd, v.extractLsb' 8 8⟩, ⟨.cmd, v.extractLsb' 0 8⟩]

/-! ## Laws of the comparator -/

/-- R147: when all differences lie in one page, the two policies give the same latches and the same list: every index from
`FIRST` to before `LASTX`, and the columns in order. -/
def Obligations.PoliciesAgreeWithinOnePage : Prop :=
  ∀ s : State, s.cfg.wf = true → (∃ k, s.differsAt k) →
    (∀ i j, s.differsAt i → s.differsAt j → i / s.cfg.pageWidth = j / s.cfg.pageWidth) →
    ∃ q,
      (∀ p, exec .flush (s.withPolicy p) = .next { s.withPolicy p with seq := .flushing q }) ∧
      q.win.sc = q.first % s.cfg.pageWidth ∧ q.win.ec = (q.lastx - 1) % s.cfg.pageWidth ∧ q.win.sc ≤ q.win.ec ∧
      q.win.sp = q.win.ep ∧
      q.txlist = windowCmds s.cfg q.win ++
        (List.range' q.first (q.lastx - q.first)).map (fun i => ⟨.data, s.fb.read i⟩)

/-- R148: under CORNERS with the columns in order the stream is exactly the window, in increasing order. -/
def Obligations.CornersWithOrderedColumnsStreamsTheWindow : Prop :=
  ∀ s : State, s.cfg.wf = true → s.cfg.windowPolicy = .corners → (∃ k, s.differsAt k) →
    ∃ (q : Latches) (idxs : List Nat), exec .flush s = .next { s with seq := .flushing q } ∧
      q.txlist = windowCmds s.cfg q.win ++ idxs.map (fun i => ⟨.data, s.fb.read i⟩) ∧
      (q.win.sc ≤ q.win.ec →
        idxs.Pairwise (· < ·) ∧
        (∀ i, i ∈ idxs ↔ q.win.sc ≤ i % s.cfg.pageWidth ∧ i % s.cfg.pageWidth ≤ q.win.ec ∧
          q.win.sp ≤ i / s.cfg.pageWidth ∧ i / s.cfg.pageWidth ≤ q.win.ep) ∧
        idxs.length = (q.win.ec - q.win.sc + 1) * (q.win.ep - q.win.sp + 1))

/-- R149: under CORNERS a differing index is streamed (a member of the stream index list of R140) exactly when its column lies between the corner columns, and one that
is not streamed occurs only when the window spans two or more pages. -/
def Obligations.CornersOmitsDifferencesOutsideTheCornerColumns : Prop :=
  ∀ s : State, s.cfg.wf = true → s.cfg.windowPolicy = .corners → (∃ k, s.differsAt k) →
    ∃ q : Latches, exec .flush s = .next { s with seq := .flushing q } ∧
      q.txlist = windowCmds s.cfg q.win ++
        (streamList s.cfg q.first q.lastx q.win).map (fun i => ⟨.data, s.fb.read i⟩) ∧
      (streamList s.cfg q.first q.lastx q.win).Pairwise (· < ·) ∧
      ∀ i, s.differsAt i →
        (i ∈ streamList s.cfg q.first q.lastx q.win ↔
          q.win.sc ≤ i % s.cfg.pageWidth ∧ i % s.cfg.pageWidth ≤ q.win.ec) ∧
        (i ∉ streamList s.cfg q.first q.lastx q.win → q.win.sp < q.win.ep)

/-- R150: under CORNERS the window is inverted exactly when the first difference's column is right of the last one's; it
then spans pages, and the list is the six window commands alone. -/
def Obligations.CornersWithInvertedColumnsStreamsNothing : Prop :=
  ∀ s : State, s.cfg.wf = true → s.cfg.windowPolicy = .corners → (∃ k, s.differsAt k) →
    ∃ q, exec .flush s = .next { s with seq := .flushing q } ∧
      (q.win.ec < q.win.sc ↔ (q.lastx - 1) % s.cfg.pageWidth < q.first % s.cfg.pageWidth) ∧
      (q.win.ec < q.win.sc → q.win.sp < q.win.ep ∧ q.txlist = windowCmds s.cfg q.win)

/-- R151: under BOUNDING the window is in order, every difference is streamed, the stream is as long as the window, and a
streamed byte outside the difference set equals its SNAP value. -/
def Obligations.BoundingStreamsEveryDifference : Prop :=
  ∀ s : State, s.cfg.wf = true → s.cfg.windowPolicy = .bounding → (∃ k, s.differsAt k) →
    ∃ q : Latches, exec .flush s = .next { s with seq := .flushing q } ∧
      q.txlist = windowCmds s.cfg q.win ++
        (streamList s.cfg q.first q.lastx q.win).map (fun i => ⟨.data, s.fb.read i⟩) ∧
      (streamList s.cfg q.first q.lastx q.win).Pairwise (· < ·) ∧
      q.win.sc ≤ q.win.ec ∧ q.win.sp ≤ q.win.ep ∧
      (∀ i, s.differsAt i → i ∈ streamList s.cfg q.first q.lastx q.win) ∧
      (streamList s.cfg q.first q.lastx q.win).length =
        (q.win.ec - q.win.sc + 1) * (q.win.ep - q.win.sp + 1) ∧
      (∀ i ∈ streamList s.cfg q.first q.lastx q.win, ¬ s.differsAt i → s.fb.read i = s.snap.read i)

/-- R152: with one differing byte `k` the window is the one column and page of `k`, under both policies, and the list is
the six commands and that byte. -/
def Obligations.SingleDifferenceFlush : Prop :=
  ∀ (s : State) (k : Nat), s.cfg.wf = true → (∀ i, s.differsAt i ↔ i = k) →
    exec .flush s = .next { s with seq := .flushing {
      txlist := [⟨.cmd, s.cfg.opcSetColumn⟩, ⟨.cmd, BitVec.ofNat 8 (k % s.cfg.pageWidth)⟩,
                 ⟨.cmd, BitVec.ofNat 8 (k % s.cfg.pageWidth)⟩, ⟨.cmd, s.cfg.opcSetPage⟩,
                 ⟨.cmd, BitVec.ofNat 8 (k / s.cfg.pageWidth)⟩, ⟨.cmd, BitVec.ofNat 8 (k / s.cfg.pageWidth)⟩,
                 ⟨.data, s.fb.read k⟩],
      txpos := 0, first := k, lastx := k + 1,
      win := { sc := k % s.cfg.pageWidth, ec := k % s.cfg.pageWidth,
               sp := k / s.cfg.pageWidth, ep := k / s.cfg.pageWidth } } }

/-! ## Transact, abort, Commit -/

/-- R31 (2), R62: a transaction answered OK moves the cursor on by one and is recorded; nothing else of FBCORE changes.
(WindowContract is recorded at the third transaction: log entry 9.) -/
def Obligations.TransactAnsweredOkAdvancesTheCursor : Prop :=
  ∀ (s : State) (q : Latches) (tx : Tx) (later : List Answer), s.cfg.wf = true → s.noReset → s.seq = .flushing q →
    q.txlist[q.txpos]? = some tx → s.answers = .ok :: later →
    step s = .next { s with resetLine := s.resetLine.tail, answers := later, history := s.history ++ [⟨tx, .ok⟩],
                            windowContract := s.windowContract || (q.txpos == 2 && decide (q.win.ec < q.win.sc)),
                            seq := .flushing { q with txpos := q.txpos + 1 } }

/-- R142, R201: a transaction answered FAIL aborts the flush: IDLE, BUS_ERROR, and nothing else changes but that the
transaction is recorded: FB, SNAP and what was answered before stay. (WindowContract is recorded with the answer
to the third transaction, OK or FAIL: log entry 9. The answers to come and the reset line are log entries 3 and 4.) -/
def Obligations.TransactAnsweredFailAborts : Prop :=
  ∀ (s : State) (q : Latches) (tx : Tx) (later : List Answer), s.cfg.wf = true → s.noReset → s.seq = .flushing q →
    q.txlist[q.txpos]? = some tx → s.answers = .fail :: later →
    step s = .next { s with resetLine := s.resetLine.tail, answers := later, history := s.history ++ [⟨tx, .fail⟩],
                            windowContract := s.windowContract || (q.txpos == 2 && decide (q.win.ec < q.win.sc)),
                            seq := .idle, response := some 0x0100, responses := s.responses ++ [0x0100] }

/-- R190: while the transport does not answer, FBCORE stays where it is. (An empty list of answers is the model's form of
"no answer", log entry 3; that nothing is recorded before the answer, not WindowContract either, is its choice, log entries 9
and 16; the sampled reset line is log entry 4.) -/
def Obligations.UnansweredTransactionWaits : Prop :=
  ∀ (s : State) (q : Latches), s.cfg.wf = true → s.noReset → s.seq = .flushing q → q.txpos < q.txlist.length →
    s.answers = [] → step s = .next { s with resetLine := s.resetLine.tail }

/-- R143: when every transaction has been answered OK, the step copies FB to SNAP, clears FB, returns to IDLE and answers
OK. -/
def Obligations.CommitCopiesFbToSnapAndClearsFb : Prop :=
  ∀ (s : State) (q : Latches), s.cfg.wf = true → s.noReset → s.seq = .flushing q → q.txpos = q.txlist.length →
    ∃ t, step s = .next t ∧ (∀ i, t.snap.read i = s.fb.read i) ∧ (∀ i, t.fb.read i = 0x00) ∧
      t = { s with resetLine := s.resetLine.tail, snap := t.snap, fb := t.fb, seq := .idle, response := some 0x0000,
                   responses := s.responses ++ [0x0000] }

/-- R155, R156, R248: a flush whose every transaction is answered OK ends after one step for each transaction and one
Commit, with exactly its list issued in order, SNAP the FB of its acceptance, FB cleared and one response OK. -/
def Obligations.FlushCompletesWhenEveryTransactionIsAnsweredOk : Prop :=
  ∀ (s : State) (q : Latches) (later : List Answer), s.cfg.wf = true → (∀ r ∈ s.resetLine, r = false) →
    s.seq = .flushing q → q.txpos = 0 → s.answers = List.replicate q.txlist.length .ok ++ later →
    ∃ t, run (q.txlist.length + 1) s = .next t ∧ (∀ i, t.snap.read i = s.fb.read i) ∧ (∀ i, t.fb.read i = 0x00) ∧
      t.seq = .idle ∧ t.response = some 0x0000 ∧ t.responses = s.responses ++ [0x0000] ∧
      t.history = s.history ++ q.txlist.map (fun tx => ⟨tx, .ok⟩) ∧ t.answers = later ∧ t.requests = s.requests

/-- R142, R156, R201: a flush whose transaction `j` is the first answered FAIL ends in `j + 1` steps, with exactly the
transactions up to that one issued, FB and SNAP unchanged, and one response BUS_ERROR. -/
def Obligations.FlushAbortsAtTheFirstFailure : Prop :=
  ∀ (s : State) (q : Latches) (j : Nat) (tx : Tx) (later : List Answer), s.cfg.wf = true →
    (∀ r ∈ s.resetLine, r = false) → s.seq = .flushing q → q.txpos = 0 → q.txlist[j]? = some tx →
    s.answers = List.replicate j .ok ++ .fail :: later →
    ∃ t, run (j + 1) s = .next t ∧ t.fb = s.fb ∧ t.snap = s.snap ∧ t.seq = .idle ∧ t.response = some 0x0100 ∧
      t.responses = s.responses ++ [0x0100] ∧
      t.history = s.history ++ (q.txlist.take j).map (fun tx => ⟨tx, .ok⟩) ++ [⟨tx, .fail⟩] ∧
      t.answers = later ∧ t.requests = s.requests

/-- R153: after a FLUSH or a FLUSHALL that ended in BUS_ERROR, a FLUSH issued again finds the same latches, window and
transaction list as a FLUSH in place of that request does. -/
def Obligations.RetryAfterABusFailureFindsTheSameFlush : Prop :=
  ∀ (s : State) (k j : Nat) (later : List Answer), s.cfg.wf = true → (∀ r ∈ s.resetLine, r = false) →
    s.differsAt k → s.answers = List.replicate j .ok ++ .fail :: later →
    ∃ q p, exec .flush s = .next { s with seq := .flushing q } ∧ exec .flushall s = .next { s with seq := .flushing p } ∧
      (j < q.txlist.length → ∃ t, run (j + 1) { s with seq := .flushing q } = .next t ∧
        t.response = some 0x0100 ∧ exec .flush t = .next { t with seq := .flushing q }) ∧
      (j < p.txlist.length → ∃ t, run (j + 1) { s with seq := .flushing p } = .next t ∧
        t.response = some 0x0100 ∧ exec .flush t = .next { t with seq := .flushing q })

/-- R154, the case of a flush that committed: a FLUSH right after a Commit of frame F issues nothing when F is all 0x00;
otherwise its differences are the lit bytes of F, and it transmits 0x00 for every index of its stream list (R140). -/
def Obligations.FlushRightAfterACommit : Prop :=
  ∀ (s t : State) (q : Latches), s.cfg.wf = true → s.noReset → s.seq = .flushing q → q.txpos = q.txlist.length →
    step s = .next t →
    ((∀ i < s.cfg.n, s.fb.read i = 0x00) → ∃ u, exec .flush t = .next u ∧ u.seq = .idle ∧ u.history = t.history ∧
      u.response = some 0x0000) ∧
    ((∃ i < s.cfg.n, s.fb.read i ≠ 0x00) → ∃ p : Latches, exec .flush t = .next { t with seq := .flushing p } ∧
      p.txlist = windowCmds t.cfg p.win ++
        (streamList t.cfg p.first p.lastx p.win).map (fun _ => ⟨.data, 0x00⟩) ∧
      ∀ i, t.differsAt i ↔ i < s.cfg.n ∧ s.fb.read i ≠ 0x00)

/-- R145, R155, R156: a FLUSHALL presented in IDLE, with every transaction answered OK, runs to its response OK in `N + 8`
steps: the whole buffer is transmitted behind the full window, SNAP takes FB, and FB is cleared. -/
def Obligations.FlushallRoundTrip : Prop :=
  ∀ (s : State) (later : List ReqWord) (more : List Answer), s.Inv → s.seq = .idle → (∀ r ∈ s.resetLine, r = false) →
    s.requests = 0x0500000000000000 :: later → s.answers = List.replicate (6 + s.cfg.n) .ok ++ more →
    ∃ t, run (s.cfg.n + 8) s = .next t ∧ (∀ i, t.snap.read i = s.fb.read i) ∧ (∀ i, t.fb.read i = 0x00) ∧
      t.seq = .idle ∧ t.response = some 0x0000 ∧ t.requests = later ∧ t.answers = more ∧
      t.history = s.history ++
        (([⟨.cmd, s.cfg.opcSetColumn⟩, ⟨.cmd, 0x00⟩, ⟨.cmd, BitVec.ofNat 8 (s.cfg.width - 1)⟩,
          ⟨.cmd, s.cfg.opcSetPage⟩, ⟨.cmd, 0x00⟩, ⟨.cmd, BitVec.ofNat 8 (s.cfg.pages - 1)⟩] : List Tx)
         ++ (List.range s.cfg.n).map (fun i => (⟨.data, s.fb.read i⟩ : Tx))).map (fun tx => ⟨tx, .ok⟩)

/-! ## The controller commands -/

/-- R79, R180: each controller command hands its three command transactions to the sequencer, in order: opcode, start byte,
end byte; nothing else changes. (Where they go is the model's choice, log entry 10: behind the list of the flush in progress,
and where none is in progress they are lone commands, in the model's own phase.) -/
def Obligations.ControllerCommandsAreThreeCommandTransactions : Prop :=
  ∀ (s : State) (a b : Nat),
    (∀ q, s.seq = .flushing q →
      exec (.setColumnAddress a b) s = .next { s with seq := .flushing { q with txlist := q.txlist ++
        [⟨.cmd, s.cfg.opcSetColumn⟩, ⟨.cmd, BitVec.ofNat 8 a⟩, ⟨.cmd, BitVec.ofNat 8 b⟩] } } ∧
      exec (.setPageAddress a b) s = .next { s with seq := .flushing { q with txlist := q.txlist ++
        [⟨.cmd, s.cfg.opcSetPage⟩, ⟨.cmd, BitVec.ofNat 8 a⟩, ⟨.cmd, BitVec.ofNat 8 b⟩] } }) ∧
    (∀ p, s.seq = .commanding p →
      exec (.setColumnAddress a b) s = .next { s with seq := .commanding (p ++
        [⟨.cmd, s.cfg.opcSetColumn⟩, ⟨.cmd, BitVec.ofNat 8 a⟩, ⟨.cmd, BitVec.ofNat 8 b⟩]) } ∧
      exec (.setPageAddress a b) s = .next { s with seq := .commanding (p ++
        [⟨.cmd, s.cfg.opcSetPage⟩, ⟨.cmd, BitVec.ofNat 8 a⟩, ⟨.cmd, BitVec.ofNat 8 b⟩]) }) ∧
    (s.seq = .idle →
      exec (.setColumnAddress a b) s = .next { s with seq := .commanding (
        [⟨.cmd, s.cfg.opcSetColumn⟩, ⟨.cmd, BitVec.ofNat 8 a⟩, ⟨.cmd, BitVec.ofNat 8 b⟩]) } ∧
      exec (.setPageAddress a b) s = .next { s with seq := .commanding (
        [⟨.cmd, s.cfg.opcSetPage⟩, ⟨.cmd, BitVec.ofNat 8 a⟩, ⟨.cmd, BitVec.ofNat 8 b⟩]) })

/-- R79, R185: a controller command given alone is issued, byte by byte in its issue order, in four steps of the machine
when the transport answers OK: the bytes of its 24-bit word, as command transactions. FB, SNAP and the responses are as
before. (The command slot and the phase of lone commands are the model's own, log entry 10.) -/
def Obligations.LoneControllerCommandIssuesItsThreeBytes : Prop :=
  ∀ (s : State) (w : CtrlWord) (i : Instr) (later : List Answer), s.cfg.wf = true → (∀ r ∈ s.resetLine, r = false) →
    s.seq = .idle → s.command = some w → decodeCtrl s.cfg w = .ok i → s.answers = .ok :: .ok :: .ok :: later →
    ∃ t, run 4 s = .next t ∧
      t.history = s.history ++ [⟨⟨.cmd, w.extractLsb' 16 8⟩, .ok⟩, ⟨⟨.cmd, w.extractLsb' 8 8⟩, .ok⟩,
                                ⟨⟨.cmd, w.extractLsb' 0 8⟩, .ok⟩] ∧
      t.seq = .idle ∧ t.command = none ∧ t.fb = s.fb ∧ t.snap = s.snap ∧ t.response = s.response ∧
      t.responses = s.responses ∧ t.requests = s.requests ∧ t.answers = later ∧ t.windowContract = s.windowContract

/-! ## Runs, and the assembler's errors -/

/-- R217: nothing has gone wrong in a fresh instance; a step that accepts an illegal word or a BYTEAT out of range, or that
has the third transaction of a flush with an inverted window answered, makes the run go wrong; and it stays so. (That
WindowContract is recorded at the third transaction is log entry 9; that a reset leaves the log of responses is log entry
6.) -/
def Obligations.EachListedWayMakesARunGoWrong : Prop :=
  (∀ c : Config, (State.fresh c).goneWrong = false) ∧
  ∀ s t : State, step s = .next t →
    (s.goneWrong = true → t.goneWrong = true) ∧
    (∀ w later e, s.noReset → s.seq = .idle → s.command = none → s.requests = w :: later → decodeReq w = .error e →
      t.goneWrong = true) ∧
    (∀ w later idx, s.noReset → s.seq = .idle → s.command = none → s.requests = w :: later →
      decodeReq w = .ok (.byteat idx) → s.cfg.n ≤ idx → t.goneWrong = true) ∧
    (∀ q tx, s.noReset → s.seq = .flushing q → q.txpos = 2 → q.txlist[q.txpos]? = some tx → s.answers ≠ [] →
      q.win.ec < q.win.sc → t.goneWrong = true)

/-- R203: a run is refused at the step that accepts an illegal word, by the name of that word; while the word on the port is
legal, or none is accepted, the run goes on with the next state of the step. (That the refusal is the run's, while the step
gives the block's answer, is the model's choice, log entry 7.) -/
def Obligations.ARunThatPresentsAnIllegalWordIsRefused : Prop :=
  (∀ (s : State) (w : ReqWord) (later : List ReqWord) (e : Reject) (k : Nat), s.cfg.wf = true → s.noReset →
    s.seq = .idle → s.command = none → s.requests = w :: later → decodeReq w = .error e →
    run (k + 1) s = .refused (.illegalRequest w)) ∧
  (∀ (s t : State) (k : Nat), step s = .next t →
    (s.noReset → s.seq = .idle → s.command = none → ∀ w later, s.requests = w :: later → ∃ i, decodeReq w = .ok i) →
    run (k + 1) s = run k t)

/-- R81, R82: "An operand outside its range is an assembly error, not an encoding". Decimal and `0x` hexadecimal numbers are
read as their values, and with a minus sign as the negative. A line of SETPX, PXON, PXOFF or BYTEAT, the mnemonic in either
case, assembles to the word of R81's table when its operands are in range; a coordinate or an index past its bounds, an `on`
that is not `0` or `1`, and a minus sign before an index are errors. (That blanks may stand after a comma, any number of
them, and that `on` has no other spelling and an index no minus sign, also not `-0`, is the model's choice, log entry 19;
which error it is, is log entry 20.) -/
def Obligations.AssemblerRefusesOperandsOutOfRange : Prop :=
  (∀ v : Nat, asmNat (Nat.toDigits 10 v) = some v ∧ asmNat ('0' :: 'x' :: Nat.toDigits 16 v) = some v) ∧
  (∀ (ds : List Char) (v : Nat), asmNat ds = some v →
    asmInt ds = some (v : Int) ∧ asmInt ('-' :: ds) = some (-(v : Int))) ∧
  (∀ (name xs ys : List Char) (x y : Int) (j k : Nat), asmInt xs = some x → asmInt ys = some y →
    let pixel := ' ' :: xs ++ [','] ++ List.replicate j ' ' ++ ys
    let sep := [','] ++ List.replicate k ' '
    let result := fun on : BitVec 1 =>
      if -32768 ≤ x ∧ x ≤ 32767 ∧ -32768 ≤ y ∧ y ≤ 32767 then
        .ok [0x01#8 ++ 0#7 ++ on ++ 0#16 ++ BitVec.ofInt 16 y ++ BitVec.ofInt 16 x]
      else .error .outOfRange
    (name.map Char.toUpper = ['S', 'E', 'T', 'P', 'X'] →
      assemble (name ++ pixel ++ sep ++ ['1']) = result 1#1 ∧
      assemble (name ++ pixel ++ sep ++ ['0']) = result 0#1 ∧
      ∀ os : List Char, os ≠ [] → (∀ ch ∈ os, asmBlank ch = false ∧ ch ≠ ',' ∧ ch ≠ ';' ∧ ch ≠ '\n') →
        os ≠ ['0'] → os ≠ ['1'] → assemble (name ++ pixel ++ sep ++ os) = .error .badOperands) ∧
    (name.map Char.toUpper = ['P', 'X', 'O', 'N'] → assemble (name ++ pixel) = result 1#1) ∧
    (name.map Char.toUpper = ['P', 'X', 'O', 'F', 'F'] → assemble (name ++ pixel) = result 0#1)) ∧
  (∀ (name ds : List Char) (v : Nat), name.map Char.toUpper = ['B', 'Y', 'T', 'E', 'A', 'T'] → asmNat ds = some v →
    (assemble (name ++ ' ' :: ds) =
      if v < 2 ^ 32 then .ok [0x03#8 ++ 0#24 ++ BitVec.ofNat 32 v] else .error .outOfRange) ∧
    assemble (name ++ ' ' :: '-' :: ds) = .error .badOperands)
end

