-- ==== Sys2Proof/Laws/Decode.lean ====
section
/-! SUPPORT. Sys2Proof/Laws/Decode.lean: the fields of an assembled word, and a word from its fields. -/

namespace Sys2Proof

theorem getLsbD_field {w : Nat} (v : BitVec w) (lo len i : Nat) :
    (field v lo len).getLsbD i = (decide (i < len) && v.getLsbD (lo + i)) := by
  simp [field, BitVec.getLsbD_extractLsb']

theorem field_and {w : Nat} (a b : BitVec w) (lo len : Nat) :
    field (a &&& b) lo len = field a lo len &&& field b lo len := by
  apply BitVec.eq_of_getLsbD_eq
  intro i hi
  rw [getLsbD_field, BitVec.getLsbD_and, BitVec.getLsbD_and, getLsbD_field, getLsbD_field]; simp [hi]

/-- A field as a number (R8). -/
theorem field_toNat {w : Nat} (v : BitVec w) (lo len : Nat) :
    (field v lo len).toNat = v.toNat / 2 ^ lo % 2 ^ len := by
  simp [field, BitVec.extractLsb'_toNat, Nat.shiftRight_eq_div_pow]

/-- R70: the bits of a request word, field by field. -/
theorem getLsbD_reqWord (op : Byte) (on : Bool) (y x : BitVec 16) (i : Nat) :
    (reqWord op on y x).getLsbD i =
      if i < 16 then x.getLsbD i
      else if i < 32 then y.getLsbD (i - 16)
      else if i < 48 then false
      else if i = 48 then on
      else if i < 56 then false
      else op.getLsbD (i - 56) := by
  simp only [reqWord, BitVec.getLsbD_append, BitVec.getLsbD_ofBool]
  by_cases h1 : i < 16
  · simp [h1]
  · simp only [h1, if_false]
    by_cases h2 : i < 32
    · simp [h2, show i - 16 < 16 by omega]
    · simp only [h2, if_false, show ¬ i - 16 < 16 by omega]
      by_cases h3 : i < 48
      · simp [h3, show i - 16 - 16 < 16 by omega]
      · simp only [h3, if_false, show ¬ i - 16 - 16 < 16 by omega]
        by_cases h4 : i = 48
        · subst h4; simp
        · simp only [h4, if_false, show ¬ i - 16 - 16 - 16 < 1 by omega]
          by_cases h5 : i < 56
          · simp [h5, show i - 16 - 16 - 16 - 1 < 7 by omega]
          · simp [h5, show ¬ i - 16 - 16 - 16 - 1 < 7 by omega, show i - 16 - 16 - 16 - 1 - 7 = i - 56 by omega]

section
variable (op : Byte) (on : Bool) (y x : BitVec 16)

@[simp] theorem reqOp_reqWord : reqOp (reqWord op on y x) = op := by
  apply BitVec.eq_of_getLsbD_eq
  intro i hi
  rw [reqOp, getLsbD_field, getLsbD_reqWord]
  simp [hi, show ¬ 56 + i < 16 by omega, show ¬ 56 + i < 32 by omega,
    show ¬ 56 + i < 48 by omega, show ¬ 56 + i = 48 by omega]

@[simp] theorem field_Z1_reqWord : field (reqWord op on y x) 49 7 = 0 := by
  apply BitVec.eq_of_getLsbD_eq
  intro i hi
  rw [getLsbD_field, getLsbD_reqWord]
  simp [show ¬ 49 + i < 16 by omega, show ¬ 49 + i < 32 by omega,
    show ¬ 49 + i < 48 by omega, show ¬ 49 + i = 48 by omega, show 49 + i < 56 by omega]

@[simp] theorem field_Z0_reqWord : field (reqWord op on y x) 32 16 = 0 := by
  apply BitVec.eq_of_getLsbD_eq
  intro i hi
  rw [getLsbD_field, getLsbD_reqWord]
  simp [show ¬ 32 + i < 16 by omega, show 32 + i < 48 by omega]

@[simp] theorem reqOn_reqWord : reqOn (reqWord op on y x) = on := by
  have : field (reqWord op on y x) 48 1 = BitVec.ofBool on := by
    apply BitVec.eq_of_getLsbD_eq
    intro i hi
    obtain rfl : i = 0 := by omega
    rw [getLsbD_field, getLsbD_reqWord]
    simp
  rw [reqOn, this]; cases on <;> rfl

@[simp] theorem field_X_reqWord : field (reqWord op on y x) 0 16 = x := by
  apply BitVec.eq_of_getLsbD_eq
  intro i hi
  rw [getLsbD_field, getLsbD_reqWord]
  simp [hi]

@[simp] theorem field_Y_reqWord : field (reqWord op on y x) 16 16 = y := by
  apply BitVec.eq_of_getLsbD_eq
  intro i hi
  rw [getLsbD_field, getLsbD_reqWord]
  simp [hi, show 16 + i < 32 by omega]

@[simp] theorem field_IDX_reqWord : field (reqWord op on y x) 0 32 = y ++ x := by
  apply BitVec.eq_of_getLsbD_eq
  intro i hi
  simp only [getLsbD_field, getLsbD_reqWord, BitVec.getLsbD_append, Nat.zero_add, hi, decide_true, Bool.true_and]
  by_cases h : i < 16 <;> simp [h]

@[simp] theorem field_upper_reqWord : field (reqWord op false y x) 32 24 = 0 := by
  apply BitVec.eq_of_getLsbD_eq
  intro i hi
  simp only [getLsbD_field, getLsbD_reqWord, hi, decide_true, Bool.true_and, show ¬ 32 + i < 16 by omega,
    show ¬ 32 + i < 32 by omega, show 32 + i < 56 by omega, if_false, if_true]
  split <;> (try split) <;> simp

@[simp] theorem field_rest_reqWord : field (reqWord op false 0#16 0#16) 0 56 = 0 := by
  apply BitVec.eq_of_getLsbD_eq
  intro i hi
  simp only [getLsbD_field, getLsbD_reqWord, hi, decide_true, Bool.true_and, Nat.zero_add, if_true]
  repeat' split
  all_goals simp

end

/-- Two halves of a word joined are the word. -/
theorem field_append_field (v : BitVec 32) : field v 16 16 ++ field v 0 16 = v := by
  apply BitVec.eq_of_getLsbD_eq
  intro i hi
  simp only [BitVec.getLsbD_append, getLsbD_field, Nat.zero_add]
  by_cases h : i < 16
  · simp [h]
  · simp [h, show i - 16 < 16 by omega, show 16 + (i - 16) = i by omega]

/-- R81: the word of BYTEAT, its index in one piece. -/
theorem reqWord_byteat (v : BitVec 32) :
    reqWord 0x03 false (field v 16 16) (field v 0 16) = 0x03#8 ++ 0#24 ++ v := by
  apply BitVec.eq_of_getLsbD_eq
  intro i hi
  rw [getLsbD_reqWord]
  simp only [BitVec.getLsbD_append, getLsbD_field]
  by_cases h1 : i < 16
  · simp [h1, show i < 32 by omega]
  · by_cases h2 : i < 32
    · simp [h1, h2, show i - 16 < 16 by omega, show 16 + (i - 16) = i by omega]
    · by_cases h3 : i < 56
      · by_cases h4 : i = 48
        · subst h4; simp
        · simp [h1, h2, h3, h4, show i - 32 < 24 by omega]
      · simp [h1, h2, h3, show ¬ i < 48 by omega, show ¬ i = 48 by omega, show ¬ i - 32 < 24 by omega,
          show i - 32 - 24 = i - 56 by omega]

/-- A request word is assembled from its fields when its must-be-0 bits are 0. -/
theorem reqWord_of_fields {w : ReqWord} (h1 : field w 49 7 = 0) (h0 : field w 32 16 = 0) :
    reqWord (reqOp w) (reqOn w) (field w 16 16) (field w 0 16) = w := by
  apply BitVec.eq_of_getLsbD_eq
  intro i hi
  have hz1 : ∀ j < 7, w.getLsbD (49 + j) = false := fun j hj => by
    have := congrArg (fun v => v.getLsbD j) h1; simp only [getLsbD_field, hj, decide_true, Bool.true_and] at this
    simpa using this
  have hz0 : ∀ j < 16, w.getLsbD (32 + j) = false := fun j hj => by
    have := congrArg (fun v => v.getLsbD j) h0; simp only [getLsbD_field, hj, decide_true, Bool.true_and] at this
    simpa using this
  have hon : reqOn w = w.getLsbD 48 := by
    have : field w 48 1 = BitVec.ofBool (w.getLsbD 48) := by
      apply BitVec.eq_of_getLsbD_eq
      intro j hj
      obtain rfl : j = 0 := by omega
      rw [getLsbD_field]; simp
    rw [reqOn, this]; cases w.getLsbD 48 <;> rfl
  rw [getLsbD_reqWord]
  split
  · rename_i h; rw [getLsbD_field]; simp [h]
  · split
    · rename_i h h'; rw [getLsbD_field]; simp [show i - 16 < 16 by omega, show 16 + (i - 16) = i by omega]
    · split
      · have := hz0 (i - 32) (by omega); rw [show 32 + (i - 32) = i by omega] at this; exact this.symm
      · split
        · rename_i h; rw [hon, h]
        · split
          · have := hz1 (i - 49) (by omega); rw [show 49 + (i - 49) = i by omega] at this; exact this.symm
          · rw [reqOp, getLsbD_field]; simp [show i - 56 < 8 by omega, show 56 + (i - 56) = i by omega]

/-- A request word whose bits 55:0 are 0 is its opcode. -/
theorem reqWord_of_rest {w : ReqWord} (h : field w 0 56 = 0) : reqWord (reqOp w) false 0 0 = w := by
  have hz : ∀ j < 56, w.getLsbD j = false := fun j hj => by
    have := congrArg (fun v => v.getLsbD j) h
    simp only [getLsbD_field, hj, decide_true, Bool.true_and, Nat.zero_add] at this
    simpa using this
  apply BitVec.eq_of_getLsbD_eq
  intro i hi
  rw [getLsbD_reqWord]
  by_cases h : i < 56
  · rw [hz i h]; repeat' split
    all_goals simp_all
  · simp only [show ¬ i < 16 by omega, show ¬ i < 32 by omega, show ¬ i < 48 by omega,
      show ¬ i = 48 by omega, h, if_false]
    rw [reqOp, getLsbD_field]; simp [show i - 56 < 8 by omega, show 56 + (i - 56) = i by omega]

/-- A request word whose bits 55:32 are 0 is its opcode and its index. -/
theorem reqWord_of_upper {w : ReqWord} (h : field w 32 24 = 0) :
    reqWord (reqOp w) false (field w 16 16) (field w 0 16) = w := by
  have hz : ∀ j < 24, w.getLsbD (32 + j) = false := fun j hj => by
    have := congrArg (fun v => v.getLsbD j) h
    simp only [getLsbD_field, hj, decide_true, Bool.true_and] at this
    simpa using this
  apply BitVec.eq_of_getLsbD_eq
  intro i hi
  rw [getLsbD_reqWord]
  by_cases h1 : i < 16
  · rw [if_pos h1, getLsbD_field]; simp [h1]
  · by_cases h2 : i < 32
    · rw [if_neg h1, if_pos h2, getLsbD_field]; simp [show i - 16 < 16 by omega, show 16 + (i - 16) = i by omega]
    · by_cases h : i < 56
      · have := hz (i - 32) (by omega); rw [show 32 + (i - 32) = i by omega] at this
        rw [this]; simp [h1, h2, h]
      · simp only [show ¬ i < 16 by omega, show ¬ i < 32 by omega, show ¬ i < 48 by omega,
      show ¬ i = 48 by omega, h, if_false]
        rw [reqOp, getLsbD_field]; simp [show i - 56 < 8 by omega, show 56 + (i - 56) = i by omega]

/-- The halves of the index field. -/
theorem field_IDX_halves (w : ReqWord) :
    field (field w 0 32) 16 16 = field w 16 16 ∧ field (field w 0 32) 0 16 = field w 0 16 := by
  constructor <;> (apply BitVec.eq_of_getLsbD_eq; intro i hi; rw [getLsbD_field, getLsbD_field, getLsbD_field])
  · simp [hi, show 16 + i < 32 by omega]
  · simp [hi, show i < 32 by omega]

section
variable (op a b : Byte)

/-- R79: the bits of a controller command, byte by byte. -/
theorem getLsbD_ctrlWord (i : Nat) : (ctrlWord op a b).getLsbD i =
    if i < 8 then b.getLsbD i else if i < 16 then a.getLsbD (i - 8) else op.getLsbD (i - 16) := by
  simp only [ctrlWord, BitVec.getLsbD_append]
  by_cases h1 : i < 8
  · simp [h1]
  · by_cases h2 : i < 16
    · simp [h1, h2, show i - 8 < 8 by omega]
    · simp [h1, h2, show ¬ i - 8 < 8 by omega, show i - 8 - 8 = i - 16 by omega]

@[simp] theorem field_op_ctrlWord : field (ctrlWord op a b) 16 8 = op := by
  apply BitVec.eq_of_getLsbD_eq
  intro i hi
  rw [getLsbD_field, getLsbD_ctrlWord]
  simp [hi, show ¬ 16 + i < 8 by omega, show ¬ 16 + i < 16 by omega]

@[simp] theorem field_start_ctrlWord : field (ctrlWord op a b) 8 8 = a := by
  apply BitVec.eq_of_getLsbD_eq
  intro i hi
  rw [getLsbD_field, getLsbD_ctrlWord]
  simp [hi, show ¬ 8 + i < 8 by omega, show 8 + i < 16 by omega]

@[simp] theorem field_stop_ctrlWord : field (ctrlWord op a b) 0 8 = b := by
  apply BitVec.eq_of_getLsbD_eq
  intro i hi
  rw [getLsbD_field, getLsbD_ctrlWord]
  simp [hi]

end

/-- A controller command is assembled from its three bytes. -/
theorem ctrlWord_of_fields (w : CtrlWord) : ctrlWord (field w 16 8) (field w 8 8) (field w 0 8) = w := by
  apply BitVec.eq_of_getLsbD_eq
  intro i hi
  rw [getLsbD_ctrlWord]
  split
  · rename_i h; rw [getLsbD_field]; simp [h]
  · split
    · rw [getLsbD_field]; simp [show i - 8 < 8 by omega, show 8 + (i - 8) = i by omega]
    · rw [getLsbD_field]; simp [show i - 16 < 8 by omega, show 16 + (i - 16) = i by omega]

theorem coordOk_iff {v : Int} : coordOk v = true ↔ -32768 ≤ v ∧ v ≤ 32767 := by
  simp [coordOk]
  omega

/-- R73: the operands that SETPX admits. -/
theorem wf_setpx_iff {x y : Int} {on : Bool} : (Instr.setpx x y on).wf = true ↔
    -32768 ≤ x ∧ x ≤ 32767 ∧ -32768 ≤ y ∧ y ≤ 32767 := by
  rw [Instr.wf, Bool.and_eq_true, coordOk_iff, coordOk_iff, and_assoc]

/-- R74: the operand that BYTEAT admits. -/
theorem wf_byteat_iff {idx : Nat} : (Instr.byteat idx).wf = true ↔ idx < 2 ^ 32 := decide_eq_true_iff

/-- R73: a coordinate in range is the signed value of its own field. -/
theorem toInt_coord {v : Int} (h : coordOk v = true) : (BitVec.ofInt 16 v).toInt = v := by
  obtain ⟨h1, h2⟩ := coordOk_iff.1 h
  rw [BitVec.toInt_ofInt, Int.bmod_eq_of_le (by omega) (by omega)]

/-- R73: a coordinate field holds a coordinate in range. -/
theorem coordOk_toInt (v : BitVec 16) : coordOk v.toInt = true := by
  rw [coordOk_iff]
  have h1 := BitVec.le_toInt v
  have h2 := BitVec.toInt_lt (x := v)
  omega

end Sys2Proof
end

