-- ==== Sys2Proof/Laws/Assembler.lean ====
section
/-! SUPPORT. Sys2Proof/Laws/Assembler.lean: how the assembler cuts a line into its mnemonic and operands, and which characters
an operand is made of. -/

namespace Sys2Proof.Machine

/-- A character that neither ends a word, an operand or a line, nor opens a comment. -/
def Plain (ch : Char) : Prop := asmBlank ch = false ∧ ch ≠ ',' ∧ ch ≠ ';' ∧ ch ≠ '\n'

theorem plain_of_toNat {ch : Char} (h : 45 ≤ ch.toNat) (h' : ch.toNat ≠ 59) : Plain ch := by
  have ne : ∀ d : Char, (d.toNat < 45 ∨ d.toNat = 59) → ch ≠ d := by
    rintro d hd rfl; omega
  refine ⟨?_, ne ',' (by decide), ne ';' (by decide), ne '\n' (by decide)⟩
  simp [asmBlank, ne ' ' (by decide), ne '\t' (by decide), ne '\r' (by decide)]

theorem decDigit_plain {ch : Char} {d : Nat} (h : decDigit ch = some d) : Plain ch := by
  unfold decDigit at h
  split at h
  · exact plain_of_toNat (by omega) (by omega)
  · cases h

theorem hexDigit_plain {ch : Char} {d : Nat} (h : hexDigit ch = some d) : Plain ch := by
  unfold hexDigit at h
  split at h
  · exact plain_of_toNat (by omega) (by omega)
  · split at h
    · exact plain_of_toNat (by omega) (by omega)
    · split at h
      · exact plain_of_toNat (by omega) (by omega)
      · cases h

theorem digitsFrom_plain {base : Nat} {digit : Char → Option Nat} (hd : ∀ {ch d}, digit ch = some d → Plain ch) :
    ∀ {l : List Char} {acc v : Nat}, digitsFrom base digit acc l = some v → ∀ ch ∈ l, Plain ch
  | [], _, _, _ => by simp
  | a :: l, acc, v, h => by
    simp only [digitsFrom] at h
    split at h
    · rename_i d he
      rintro ch (_ | ⟨_, hm⟩)
      · exact hd he
      · exact digitsFrom_plain hd h ch hm
    · cases h

/-- The characters of a natural number; there is at least one. -/
theorem asmNat_plain {l : List Char} {v : Nat} (h : asmNat l = some v) : l ≠ [] ∧ ∀ ch ∈ l, Plain ch := by
  unfold asmNat at h
  split at h
  · cases h
  · refine ⟨by simp, ?_⟩
    split at h
    · rename_i d ds
      have := digitsFrom_plain hexDigit_plain h
      rintro ch (_ | ⟨_, _ | ⟨_, hm⟩⟩)
      · exact plain_of_toNat (by decide) (by decide)
      · exact plain_of_toNat (by decide) (by decide)
      · exact this ch hm
    · exact digitsFrom_plain decDigit_plain h

/-- The characters of an integer; there is at least one. -/
theorem asmInt_plain {l : List Char} {v : Int} (h : asmInt l = some v) : l ≠ [] ∧ ∀ ch ∈ l, Plain ch := by
  unfold asmInt at h
  split at h
  · simp only [Option.map_eq_some_iff] at h
    obtain ⟨w, hw, -⟩ := h
    refine ⟨by simp, ?_⟩
    rintro ch (_ | ⟨_, hm⟩)
    · exact plain_of_toNat (by decide) (by decide)
    · exact (asmNat_plain hw).2 ch hm
  · simp only [Option.map_eq_some_iff] at h
    obtain ⟨w, hw, -⟩ := h
    exact asmNat_plain hw

theorem cutAt_none {sep : Char} : ∀ {l : List Char}, sep ∉ l → cutAt sep l = [l]
  | [], _ => rfl
  | a :: l, h => by
    simp only [List.mem_cons, not_or] at h
    simp [cutAt, Ne.symm h.1, cutAt_none h.2]

theorem cutAt_append {sep : Char} : ∀ {l : List Char} (r : List Char), sep ∉ l →
    cutAt sep (l ++ sep :: r) = l :: cutAt sep r
  | [], r, _ => by simp [cutAt]
  | a :: l, r, h => by
    simp only [List.mem_cons, not_or] at h
    simp [cutAt, Ne.symm h.1, cutAt_append r h.2]

/-- A text with no blank at either end is its own trimming. -/
theorem asmTrim_eq {a b : Char} {l m : List Char} (ha : asmBlank a = false) (hb : asmBlank b = false)
    (h : a :: l = m ++ [b]) : asmTrim (a :: l) = a :: l := by
  have h1 : (a :: l).dropWhile asmBlank = a :: l := by simp [List.dropWhile, ha]
  rw [asmTrim, h1, h, List.reverse_append, List.reverse_singleton, List.singleton_append]
  simp [List.dropWhile, hb]

theorem asmTrim_of_plain {l : List Char} (h : ∀ ch ∈ l, asmBlank ch = false) : asmTrim l = l := by
  cases l with
  | nil => rfl
  | cons a l =>
    exact asmTrim_eq (h a (by simp)) (h ((a :: l).getLast (by simp)) (List.getLast_mem _))
      (List.dropLast_append_getLast (by simp)).symm

theorem asmTrim_blank_cons (l : List Char) : asmTrim (' ' :: l) = asmTrim l := by
  simp [asmTrim, List.dropWhile, asmBlank]

theorem asmTrim_blanks (n : Nat) (l : List Char) : asmTrim (List.replicate n ' ' ++ l) = asmTrim l := by
  induction n with
  | zero => rfl
  | succ n ih => rw [List.replicate_succ, List.cons_append, asmTrim_blank_cons, ih]

theorem takeWhile_append_of {p : Char → Bool} {a : Char} : ∀ {l : List Char} (r : List Char), (∀ ch ∈ l, p ch = true) →
    p a = false → (l ++ a :: r).takeWhile p = l ∧ (l ++ a :: r).dropWhile p = a :: r
  | [], r, _, ha => by simp [ha]
  | b :: l, r, h, ha => by
    have hb := h b (by simp)
    have := takeWhile_append_of r (fun ch hc => h ch (by simp [hc])) ha (l := l)
    simp [hb, this]

/-- A character whose capital is a letter of a mnemonic is a letter. -/
theorem plain_of_toUpper {ch : Char} (h : 65 ≤ ch.toUpper.toNat) : Plain ch := by
  have ne : ∀ d : Char, d.toUpper.toNat < 65 → ch ≠ d := by
    rintro d hd rfl; omega
  refine ⟨?_, ne ',' (by decide), ne ';' (by decide), ne '\n' (by decide)⟩
  simp [asmBlank, ne ' ' (by decide), ne '\t' (by decide), ne '\r' (by decide)]

/-- A line made of a mnemonic, one space and operands, with no comment and no blank at its end. -/
theorem asmLine_mnemonic {mnemonic body b : List Char} {c : Char} (hm : ∀ ch ∈ mnemonic, Plain ch)
    (hne : mnemonic ≠ []) (hb : ∀ ch ∈ body, ch ≠ ';') (hend : body = b ++ [c]) (hc : asmBlank c = false) :
    asmLine (mnemonic ++ ' ' :: body) =
      asmInstr (mnemonic.map Char.toUpper) ((cutAt ',' (' ' :: body)).map asmTrim) := by
  have h1 : (mnemonic ++ ' ' :: body).takeWhile (· != ';') = mnemonic ++ ' ' :: body := by
    rw [List.takeWhile_eq_self_iff]
    intro ch hc
    simp only [List.mem_append, List.mem_cons] at hc
    rcases hc with h | rfl | h
    · simpa using (hm ch h).2.2.1
    · decide
    · simpa using hb ch h
  have h2 : asmTrim (mnemonic ++ ' ' :: body) = mnemonic ++ ' ' :: body := by
    obtain ⟨a, l, rfl⟩ := List.exists_cons_of_ne_nil hne
    refine asmTrim_eq (hm a (by simp)).1 hc (m := (a :: l) ++ ' ' :: b) ?_
    rw [hend, List.append_assoc]
    rfl
  have h3 := takeWhile_append_of (p := fun ch => !asmBlank ch) (a := ' ') (l := mnemonic) body
    (fun ch hc => by simp [(hm ch hc).1]) (by decide)
  unfold asmLine
  rw [h1, h2]
  simp only [h3.1, h3.2]
  rw [if_neg (by simp)]

/-- A text of one line. -/
theorem assemble_line {line : List Char} (h : '\n' ∉ line) : assemble line = (asmLine line).bind asmWords := by
  rw [assemble, cutAt_none h]
  simp only [asmLines]
  cases (asmLine line).bind asmWords with
  | error e => rfl
  | ok u => simp

/-- A parsed pixel instruction, when its operands are in range (R73, R81). -/
theorem asmRange_setpx (x y : Int) (on : Bool) : (asmRange (.setpx x y on)).bind asmWords =
    if -32768 ≤ x ∧ x ≤ 32767 ∧ -32768 ≤ y ∧ y ≤ 32767 then
      .ok [reqWord 0x01 on (BitVec.ofInt 16 y) (BitVec.ofInt 16 x)]
    else .error .outOfRange := by
  by_cases h : -32768 ≤ x ∧ x ≤ 32767 ∧ -32768 ≤ y ∧ y ≤ 32767
  · rw [if_pos h, asmRange, if_pos (by rwa [wf_setpx_iff])]; rfl
  · rw [if_neg h, asmRange, if_neg (by rwa [wf_setpx_iff])]; rfl

/-- A parsed BYTEAT, when its index is in range (R74, R81). -/
theorem asmRange_byteat (v : Nat) : (asmRange (.byteat v)).bind asmWords =
    if v < 2 ^ 32 then
      .ok [reqWord 0x03 false (field (BitVec.ofNat 32 v) 16 16) (field (BitVec.ofNat 32 v) 0 16)]
    else .error .outOfRange := by
  by_cases h : v < 2 ^ 32
  · rw [if_pos h, asmRange, if_pos (by rwa [wf_byteat_iff])]; rfl
  · rw [if_neg h, asmRange, if_neg (by rwa [wf_byteat_iff])]; rfl

end Sys2Proof.Machine
end

