-- ==== Sys2Proof/Laws/Dispatch.lean ====
section
/-! SUPPORT. Sys2Proof/Laws/Dispatch.lean: the meaning each instruction is dispatched to. Cite these rather than unfold
`exec`. -/

namespace Sys2Proof.Machine

variable (s : State)

@[simp] theorem exec_setpx (x y : Int) (on : Bool) : exec (.setpx x y on) s = execSetpx x y on s := rfl

@[simp] theorem exec_clear : exec .clear s = execClear s := rfl

@[simp] theorem exec_byteat (idx : Nat) : exec (.byteat idx) s = execByteat idx s := rfl

@[simp] theorem exec_flush : exec .flush s = execFlush s := rfl

@[simp] theorem exec_flushall : exec .flushall s = execFlushall s := rfl

@[simp] theorem exec_setColumnAddress (sc ec : Nat) :
    exec (.setColumnAddress sc ec) s = execSetColumnAddress sc ec s := rfl

@[simp] theorem exec_setPageAddress (sp ep : Nat) : exec (.setPageAddress sp ep) s = execSetPageAddress sp ep s := rfl

end Sys2Proof.Machine
end

