-- ==== Sys2Proof/Laws/Memory.lean ====
section
/-! SUPPORT. Sys2Proof/Laws/Memory.lean: the laws of the byte memories: read after write, and the canonical form kept by
every operation. -/

namespace Sys2Proof.Machine.Memory

@[simp] theorem read_zeros (i : Nat) : zeros.read i = 0 := rfl

@[simp] theorem read_nil (i : Nat) : Memory.read [] i = 0 := rfl

theorem read_cons (k : Nat) (v : Byte) (m : Memory) (i : Nat) :
    Memory.read ((k, v) :: m) i = if k = i then v else Memory.read m i := rfl

@[simp] theorem wf_zeros : zeros.wf = true := rfl

@[simp] theorem within_zeros (n : Nat) : zeros.within n = true := rfl

theorem wf_cons {k : Nat} {v : Byte} {m : Memory} :
    Memory.wf ((k, v) :: m) = true ↔ v ≠ 0 ∧ (∀ cell ∈ m, k < cell.1) ∧ m.wf = true := by
  simp [Memory.wf, and_assoc]

theorem within_iff {n : Nat} {m : Memory} : m.within n = true ↔ ∀ cell ∈ m, cell.1 < n := by
  simp [Memory.within]

/-- An index below every listed one reads as 0x00. -/
theorem read_eq_zero_of_lt {m : Memory} {i : Nat} (h : ∀ cell ∈ m, i < cell.1) : m.read i = 0 := by
  induction m with
  | nil => rfl
  | cons cell m ih =>
    obtain ⟨k, v⟩ := cell
    have hk : i < k := h (k, v) (by simp)
    rw [read_cons, if_neg (by omega)]
    exact ih fun c hc => h c (List.mem_cons_of_mem _ hc)

/-- An index outside the memory reads as 0x00. -/
theorem read_eq_zero_of_within {n : Nat} {m : Memory} (h : m.within n = true) {i : Nat} (hi : n ≤ i) :
    m.read i = 0 := by
  rw [within_iff] at h
  induction m with
  | nil => rfl
  | cons cell m ih =>
    obtain ⟨k, v⟩ := cell
    have hk : k < n := h (k, v) (by simp)
    rw [read_cons, if_neg (by omega)]
    exact ih fun c hc => h c (List.mem_cons_of_mem _ hc)

/-- A write lists no index that was neither listed nor written. -/
theorem mem_write {m : Memory} {i : Nat} {v : Byte} {cell : Host.Cell} (h : cell ∈ m.write i v) :
    cell = (i, v) ∨ cell ∈ m := by
  induction m with
  | nil => simp only [Memory.write] at h; split at h <;> simp_all
  | cons c m ih =>
    obtain ⟨k, b⟩ := c
    simp only [Memory.write] at h
    split at h
    · split at h <;> simp_all
    · split at h
      · split at h <;> simp only [List.mem_cons] at h ⊢ <;> tauto
      · rcases List.mem_cons.1 h with h | h
        · simp [h]
        · rcases ih h with h | h <;> simp [h]

/-- A write keeps the canonical form. -/
theorem wf_write {m : Memory} (h : m.wf = true) (i : Nat) (v : Byte) : (m.write i v).wf = true := by
  induction m with
  | nil => simp only [Memory.write]; split <;> simp_all [Memory.wf]
  | cons c m ih =>
    obtain ⟨k, b⟩ := c
    obtain ⟨hb, hlt, hm⟩ := wf_cons.1 h
    simp only [Memory.write]
    split
    · rename_i hik
      split
      · exact h
      · rename_i hv
        refine wf_cons.2 ⟨hv, ?_, h⟩
        intro cell hc
        rcases List.mem_cons.1 hc with rfl | hc
        · exact hik
        · exact Nat.lt_trans hik (hlt cell hc)
    · split
      · rename_i hik
        subst hik
        split
        · exact hm
        · rename_i hv
          exact wf_cons.2 ⟨hv, hlt, hm⟩
      · refine wf_cons.2 ⟨hb, ?_, ih hm⟩
        intro cell hc
        rcases mem_write hc with rfl | hc
        · simp only; omega
        · exact hlt cell hc

/-- A write at an index of the memory stays within it. -/
theorem within_write {n : Nat} {m : Memory} (h : m.within n = true) {i : Nat} (hi : i < n) (v : Byte) :
    (m.write i v).within n = true := by
  rw [within_iff] at *
  intro cell hc
  rcases mem_write hc with rfl | hc
  · exact hi
  · exact h cell hc

/-- What a read gives after a write: the written byte at its index, and every other byte as before. -/
theorem read_write {m : Memory} (h : m.wf = true) (i : Nat) (v : Byte) (j : Nat) :
    (m.write i v).read j = if j = i then v else m.read j := by
  induction m with
  | nil =>
    by_cases hv : v = 0
    · subst hv; simp [Memory.write]
    · simp only [Memory.write, if_neg hv, read_cons, read_nil]
      by_cases hj : j = i
      · simp [hj]
      · simp [hj, Ne.symm hj]
  | cons c m ih =>
    obtain ⟨k, b⟩ := c
    obtain ⟨hb, hlt, hm⟩ := wf_cons.1 h
    simp only [Memory.write]
    split
    · rename_i hik
      have hz : Memory.read ((k, b) :: m) i = 0 := read_eq_zero_of_lt (by
        intro cell hc
        rcases List.mem_cons.1 hc with rfl | hc
        · exact hik
        · exact Nat.lt_trans hik (hlt cell hc))
      split
      · rename_i hv
        by_cases hj : j = i
        · simp [hj, hz, hv]
        · simp [hj]
      · rw [read_cons]
        by_cases hj : j = i
        · simp [hj]
        · simp [hj, Ne.symm hj]
    · split
      · rename_i hik
        subst hik
        split
        · rename_i hv
          by_cases hj : j = i
          · subst hj; simp [hv, read_eq_zero_of_lt hlt]
          · simp [hj, read_cons, Ne.symm hj]
        · rw [read_cons, read_cons]
          by_cases hj : j = i
          · simp [hj]
          · simp [hj, Ne.symm hj]
      · rename_i hik hne
        rw [read_cons, read_cons, ih hm]
        by_cases hk : k = j
        · have : j ≠ i := by omega
          simp [hk, this]
        · simp [hk]

theorem read_write_same {m : Memory} (h : m.wf = true) (i : Nat) (v : Byte) : (m.write i v).read i = v := by
  simp [read_write h]

theorem read_write_other {m : Memory} (h : m.wf = true) {i j : Nat} (v : Byte) (hj : j ≠ i) :
    (m.write i v).read j = m.read j := by
  simp [read_write h, hj]

/-- Canonical memories that read alike are equal. -/
theorem ext {m m' : Memory} (h : m.wf = true) (h' : m'.wf = true) (hr : ∀ i, m.read i = m'.read i) : m = m' := by
  induction m generalizing m' with
  | nil =>
    cases m' with
    | nil => rfl
    | cons c m' =>
      obtain ⟨k, b⟩ := c
      have := hr k
      simp [read_cons] at this
      exact absurd this.symm (wf_cons.1 h').1
  | cons c m ih =>
    obtain ⟨k, b⟩ := c
    obtain ⟨hb, hlt, hm⟩ := wf_cons.1 h
    cases m' with
    | nil =>
      have := hr k
      simp [read_cons] at this
      exact absurd this hb
    | cons c' m' =>
      obtain ⟨k', b'⟩ := c'
      obtain ⟨hb', hlt', hm'⟩ := wf_cons.1 h'
      have hk : k = k' := by
        rcases Nat.lt_trichotomy k k' with hl | he | hl
        · have h1 := hr k
          rw [read_cons, if_pos rfl, read_eq_zero_of_lt (m := (k', b') :: m')] at h1
          · exact absurd h1 hb
          · intro cell hc
            rcases List.mem_cons.1 hc with rfl | hc
            · exact hl
            · exact Nat.lt_trans hl (hlt' cell hc)
        · exact he
        · have h1 := hr k'
          rw [read_cons (k := k'), if_pos rfl, read_eq_zero_of_lt (m := (k, b) :: m)] at h1
          · exact absurd h1.symm hb'
          · intro cell hc
            rcases List.mem_cons.1 hc with rfl | hc
            · exact hl
            · exact Nat.lt_trans hl (hlt cell hc)
      subst hk
      have hbb : b = b' := by simpa [read_cons] using hr k
      subst hbb
      have : m = m' := ih hm hm' fun i => by
        by_cases hi : k = i
        · subst hi; rw [read_eq_zero_of_lt hlt, read_eq_zero_of_lt hlt']
        · simpa [read_cons, hi] using hr i
      rw [this]

/-- Writing what is there changes nothing. -/
theorem write_read_self {m : Memory} (h : m.wf = true) (i : Nat) : m.write i (m.read i) = m :=
  ext (wf_write h i _) h fun j => by
    rw [read_write h]
    split <;> simp_all

/-- Writes at different indices commute. -/
theorem write_comm {m : Memory} (h : m.wf = true) {i j : Nat} (hij : i ≠ j) (v w : Byte) :
    (m.write i v).write j w = (m.write j w).write i v :=
  ext (wf_write (wf_write h i v) j w) (wf_write (wf_write h j w) i v) fun a => by
    rw [read_write (wf_write h i v), read_write h, read_write (wf_write h j w), read_write h]
    by_cases h1 : a = i
    · subst h1; simp [hij]
    · simp [h1]

/-- The second of two writes at one index stands. -/
theorem write_write {m : Memory} (h : m.wf = true) (i : Nat) (v w : Byte) :
    (m.write i v).write i w = m.write i w :=
  ext (wf_write (wf_write h i v) i w) (wf_write h i w) fun a => by
    rw [read_write (wf_write h i v), read_write h, read_write h]
    split <;> rfl

/-- A canonical memory that reads 0x00 everywhere lists nothing. -/
theorem eq_zeros {m : Memory} (h : m.wf = true) (hr : ∀ i, m.read i = 0) : m = zeros :=
  ext h wf_zeros fun i => by simp [hr]

end Sys2Proof.Machine.Memory
end

