-- ==== Sys2Proof/Laws/State.lean ====
section
/-! SUPPORT. Sys2Proof/Laws/State.lean: what each field of State is after each named update, one lemma each. -/

namespace Sys2Proof.Machine.State

/-! After writing one FB byte (R9). -/

@[simp] theorem writeFB_cfg (s : State) (i : Nat) (v : Byte) : (s.writeFB i v).cfg = s.cfg := rfl
@[simp] theorem writeFB_fb (s : State) (i : Nat) (v : Byte) : (s.writeFB i v).fb = s.fb.write i v := rfl
@[simp] theorem writeFB_snap (s : State) (i : Nat) (v : Byte) : (s.writeFB i v).snap = s.snap := rfl
@[simp] theorem writeFB_seq (s : State) (i : Nat) (v : Byte) : (s.writeFB i v).seq = s.seq := rfl
@[simp] theorem writeFB_response (s : State) (i : Nat) (v : Byte) : (s.writeFB i v).response = s.response := rfl
@[simp] theorem writeFB_requests (s : State) (i : Nat) (v : Byte) : (s.writeFB i v).requests = s.requests := rfl
@[simp] theorem writeFB_answers (s : State) (i : Nat) (v : Byte) : (s.writeFB i v).answers = s.answers := rfl
@[simp] theorem writeFB_resetLine (s : State) (i : Nat) (v : Byte) : (s.writeFB i v).resetLine = s.resetLine := rfl
@[simp] theorem writeFB_command (s : State) (i : Nat) (v : Byte) : (s.writeFB i v).command = s.command := rfl
@[simp] theorem writeFB_history (s : State) (i : Nat) (v : Byte) : (s.writeFB i v).history = s.history := rfl
@[simp] theorem writeFB_responses (s : State) (i : Nat) (v : Byte) : (s.writeFB i v).responses = s.responses := rfl
@[simp] theorem writeFB_windowContract (s : State) (i : Nat) (v : Byte) :
    (s.writeFB i v).windowContract = s.windowContract := rfl

/-! After giving a response (R77). -/

@[simp] theorem respond_cfg (s : State) (st : Status) (d : Byte) : (s.respond st d).cfg = s.cfg := rfl
@[simp] theorem respond_fb (s : State) (st : Status) (d : Byte) : (s.respond st d).fb = s.fb := rfl
@[simp] theorem respond_snap (s : State) (st : Status) (d : Byte) : (s.respond st d).snap = s.snap := rfl
@[simp] theorem respond_seq (s : State) (st : Status) (d : Byte) : (s.respond st d).seq = s.seq := rfl
@[simp] theorem respond_response (s : State) (st : Status) (d : Byte) :
    (s.respond st d).response = some (rspWord st d) := rfl
@[simp] theorem respond_requests (s : State) (st : Status) (d : Byte) : (s.respond st d).requests = s.requests := rfl
@[simp] theorem respond_answers (s : State) (st : Status) (d : Byte) : (s.respond st d).answers = s.answers := rfl
@[simp] theorem respond_resetLine (s : State) (st : Status) (d : Byte) :
    (s.respond st d).resetLine = s.resetLine := rfl
@[simp] theorem respond_command (s : State) (st : Status) (d : Byte) : (s.respond st d).command = s.command := rfl
@[simp] theorem respond_history (s : State) (st : Status) (d : Byte) : (s.respond st d).history = s.history := rfl
@[simp] theorem respond_responses (s : State) (st : Status) (d : Byte) :
    (s.respond st d).responses = s.responses ++ [rspWord st d] := rfl
@[simp] theorem respond_windowContract (s : State) (st : Status) (d : Byte) :
    (s.respond st d).windowContract = s.windowContract := rfl

/-! After raising an error (R200). -/

@[simp] theorem raise_cfg (s : State) (e : Status) : (s.raise e).cfg = s.cfg := rfl
@[simp] theorem raise_fb (s : State) (e : Status) : (s.raise e).fb = s.fb := rfl
@[simp] theorem raise_snap (s : State) (e : Status) : (s.raise e).snap = s.snap := rfl
@[simp] theorem raise_seq (s : State) (e : Status) : (s.raise e).seq = .idle := rfl
@[simp] theorem raise_response (s : State) (e : Status) : (s.raise e).response = some (rspWord e 0) := rfl
@[simp] theorem raise_requests (s : State) (e : Status) : (s.raise e).requests = s.requests := rfl
@[simp] theorem raise_answers (s : State) (e : Status) : (s.raise e).answers = s.answers := rfl
@[simp] theorem raise_resetLine (s : State) (e : Status) : (s.raise e).resetLine = s.resetLine := rfl
@[simp] theorem raise_command (s : State) (e : Status) : (s.raise e).command = s.command := rfl
@[simp] theorem raise_history (s : State) (e : Status) : (s.raise e).history = s.history := rfl
@[simp] theorem raise_responses (s : State) (e : Status) : (s.raise e).responses = s.responses ++ [rspWord e 0] := rfl
@[simp] theorem raise_windowContract (s : State) (e : Status) : (s.raise e).windowContract = s.windowContract := rfl

/-! After issuing a transaction (R33). -/

@[simp] theorem record_cfg (s : State) (tx : Tx) (a : Answer) (later : List Answer) :
    (s.record tx a later).cfg = s.cfg := rfl
@[simp] theorem record_fb (s : State) (tx : Tx) (a : Answer) (later : List Answer) :
    (s.record tx a later).fb = s.fb := rfl
@[simp] theorem record_snap (s : State) (tx : Tx) (a : Answer) (later : List Answer) :
    (s.record tx a later).snap = s.snap := rfl
@[simp] theorem record_seq (s : State) (tx : Tx) (a : Answer) (later : List Answer) :
    (s.record tx a later).seq = s.seq := rfl
@[simp] theorem record_response (s : State) (tx : Tx) (a : Answer) (later : List Answer) :
    (s.record tx a later).response = s.response := rfl
@[simp] theorem record_requests (s : State) (tx : Tx) (a : Answer) (later : List Answer) :
    (s.record tx a later).requests = s.requests := rfl
@[simp] theorem record_answers (s : State) (tx : Tx) (a : Answer) (later : List Answer) :
    (s.record tx a later).answers = later := rfl
@[simp] theorem record_resetLine (s : State) (tx : Tx) (a : Answer) (later : List Answer) :
    (s.record tx a later).resetLine = s.resetLine := rfl
@[simp] theorem record_command (s : State) (tx : Tx) (a : Answer) (later : List Answer) :
    (s.record tx a later).command = s.command := rfl
@[simp] theorem record_history (s : State) (tx : Tx) (a : Answer) (later : List Answer) :
    (s.record tx a later).history = s.history ++ [⟨tx, a⟩] := rfl
@[simp] theorem record_responses (s : State) (tx : Tx) (a : Answer) (later : List Answer) :
    (s.record tx a later).responses = s.responses := rfl
@[simp] theorem record_windowContract (s : State) (tx : Tx) (a : Answer) (later : List Answer) :
    (s.record tx a later).windowContract = s.windowContract := rfl

/-! After a reset (R230). -/

@[simp] theorem resetCore_cfg (s : State) : s.resetCore.cfg = s.cfg := rfl
@[simp] theorem resetCore_fb (s : State) : s.resetCore.fb = Memory.zeros := rfl
@[simp] theorem resetCore_snap (s : State) : s.resetCore.snap = Memory.zeros := rfl
@[simp] theorem resetCore_seq (s : State) : s.resetCore.seq = .idle := rfl
@[simp] theorem resetCore_response (s : State) : s.resetCore.response = none := rfl
@[simp] theorem resetCore_requests (s : State) : s.resetCore.requests = s.requests := rfl
@[simp] theorem resetCore_answers (s : State) : s.resetCore.answers = s.answers := rfl
@[simp] theorem resetCore_resetLine (s : State) : s.resetCore.resetLine = s.resetLine := rfl
@[simp] theorem resetCore_command (s : State) : s.resetCore.command = s.command := rfl
@[simp] theorem resetCore_history (s : State) : s.resetCore.history = s.history := rfl
@[simp] theorem resetCore_responses (s : State) : s.resetCore.responses = s.responses := rfl
@[simp] theorem resetCore_windowContract (s : State) : s.resetCore.windowContract = s.windowContract := rfl

/-! After a FLUSH without a difference (R134). -/

@[simp] theorem flushUnchanged_cfg (s : State) :
    s.flushUnchanged.cfg = s.cfg := by unfold flushUnchanged; split <;> rfl
@[simp] theorem flushUnchanged_fb (s : State) :
    s.flushUnchanged.fb = if s.cfg.nodiffClears then Memory.zeros else s.fb := by unfold flushUnchanged; split <;> simp_all
@[simp] theorem flushUnchanged_snap (s : State) :
    s.flushUnchanged.snap = s.snap := by unfold flushUnchanged; split <;> rfl
@[simp] theorem flushUnchanged_seq (s : State) :
    s.flushUnchanged.seq = s.seq := by unfold flushUnchanged; split <;> rfl
@[simp] theorem flushUnchanged_response (s : State) :
    s.flushUnchanged.response = some (rspWord .ok 0) := by unfold flushUnchanged; split <;> rfl
@[simp] theorem flushUnchanged_requests (s : State) :
    s.flushUnchanged.requests = s.requests := by unfold flushUnchanged; split <;> rfl
@[simp] theorem flushUnchanged_answers (s : State) :
    s.flushUnchanged.answers = s.answers := by unfold flushUnchanged; split <;> rfl
@[simp] theorem flushUnchanged_resetLine (s : State) :
    s.flushUnchanged.resetLine = s.resetLine := by unfold flushUnchanged; split <;> rfl
@[simp] theorem flushUnchanged_command (s : State) :
    s.flushUnchanged.command = s.command := by unfold flushUnchanged; split <;> rfl
@[simp] theorem flushUnchanged_history (s : State) :
    s.flushUnchanged.history = s.history := by unfold flushUnchanged; split <;> rfl
@[simp] theorem flushUnchanged_responses (s : State) :
    s.flushUnchanged.responses = s.responses ++ [rspWord .ok 0] := by unfold flushUnchanged; split <;> rfl
@[simp] theorem flushUnchanged_windowContract (s : State) :
    s.flushUnchanged.windowContract = s.windowContract := by unfold flushUnchanged; split <;> rfl

/-! After a Commit (R143). -/

@[simp] theorem commit_cfg (s : State) : s.commit.cfg = s.cfg := rfl
@[simp] theorem commit_fb (s : State) : s.commit.fb = Memory.zeros := rfl
@[simp] theorem commit_snap (s : State) : s.commit.snap = s.fb := rfl
@[simp] theorem commit_seq (s : State) : s.commit.seq = .idle := rfl
@[simp] theorem commit_response (s : State) : s.commit.response = some (rspWord .ok 0) := rfl
@[simp] theorem commit_requests (s : State) : s.commit.requests = s.requests := rfl
@[simp] theorem commit_answers (s : State) : s.commit.answers = s.answers := rfl
@[simp] theorem commit_resetLine (s : State) : s.commit.resetLine = s.resetLine := rfl
@[simp] theorem commit_command (s : State) : s.commit.command = s.command := rfl
@[simp] theorem commit_history (s : State) : s.commit.history = s.history := rfl
@[simp] theorem commit_responses (s : State) : s.commit.responses = s.responses ++ [rspWord .ok 0] := rfl
@[simp] theorem commit_windowContract (s : State) : s.commit.windowContract = s.windowContract := rfl

/-! After taking a request from the port (R30). -/

@[simp] theorem takeRequest_cfg (s : State) (later : List ReqWord) : (s.takeRequest later).cfg = s.cfg := rfl
@[simp] theorem takeRequest_fb (s : State) (later : List ReqWord) : (s.takeRequest later).fb = s.fb := rfl
@[simp] theorem takeRequest_snap (s : State) (later : List ReqWord) : (s.takeRequest later).snap = s.snap := rfl
@[simp] theorem takeRequest_seq (s : State) (later : List ReqWord) : (s.takeRequest later).seq = s.seq := rfl
@[simp] theorem takeRequest_response (s : State) (later : List ReqWord) : (s.takeRequest later).response = none := rfl
@[simp] theorem takeRequest_requests (s : State) (later : List ReqWord) :
    (s.takeRequest later).requests = later := rfl
@[simp] theorem takeRequest_answers (s : State) (later : List ReqWord) :
    (s.takeRequest later).answers = s.answers := rfl
@[simp] theorem takeRequest_resetLine (s : State) (later : List ReqWord) :
    (s.takeRequest later).resetLine = s.resetLine := rfl
@[simp] theorem takeRequest_command (s : State) (later : List ReqWord) :
    (s.takeRequest later).command = s.command := rfl
@[simp] theorem takeRequest_history (s : State) (later : List ReqWord) :
    (s.takeRequest later).history = s.history := rfl
@[simp] theorem takeRequest_responses (s : State) (later : List ReqWord) :
    (s.takeRequest later).responses = s.responses := rfl
@[simp] theorem takeRequest_windowContract (s : State) (later : List ReqWord) :
    (s.takeRequest later).windowContract = s.windowContract := rfl

/-! After taking a command from the slot. -/

@[simp] theorem takeCommand_cfg (s : State) : s.takeCommand.cfg = s.cfg := rfl
@[simp] theorem takeCommand_fb (s : State) : s.takeCommand.fb = s.fb := rfl
@[simp] theorem takeCommand_snap (s : State) : s.takeCommand.snap = s.snap := rfl
@[simp] theorem takeCommand_seq (s : State) : s.takeCommand.seq = s.seq := rfl
@[simp] theorem takeCommand_response (s : State) : s.takeCommand.response = s.response := rfl
@[simp] theorem takeCommand_requests (s : State) : s.takeCommand.requests = s.requests := rfl
@[simp] theorem takeCommand_answers (s : State) : s.takeCommand.answers = s.answers := rfl
@[simp] theorem takeCommand_resetLine (s : State) : s.takeCommand.resetLine = s.resetLine := rfl
@[simp] theorem takeCommand_command (s : State) : s.takeCommand.command = none := rfl
@[simp] theorem takeCommand_history (s : State) : s.takeCommand.history = s.history := rfl
@[simp] theorem takeCommand_responses (s : State) : s.takeCommand.responses = s.responses := rfl
@[simp] theorem takeCommand_windowContract (s : State) : s.takeCommand.windowContract = s.windowContract := rfl

/-! After sampling the reset line. -/

@[simp] theorem sampled_cfg (s : State) : s.sampled.cfg = s.cfg := rfl
@[simp] theorem sampled_fb (s : State) : s.sampled.fb = s.fb := rfl
@[simp] theorem sampled_snap (s : State) : s.sampled.snap = s.snap := rfl
@[simp] theorem sampled_seq (s : State) : s.sampled.seq = s.seq := rfl
@[simp] theorem sampled_response (s : State) : s.sampled.response = s.response := rfl
@[simp] theorem sampled_requests (s : State) : s.sampled.requests = s.requests := rfl
@[simp] theorem sampled_answers (s : State) : s.sampled.answers = s.answers := rfl
@[simp] theorem sampled_resetLine (s : State) : s.sampled.resetLine = s.resetLine.tail := rfl
@[simp] theorem sampled_command (s : State) : s.sampled.command = s.command := rfl
@[simp] theorem sampled_history (s : State) : s.sampled.history = s.history := rfl
@[simp] theorem sampled_responses (s : State) : s.sampled.responses = s.responses := rfl
@[simp] theorem sampled_windowContract (s : State) : s.sampled.windowContract = s.windowContract := rfl

end Sys2Proof.Machine.State
end

