-- ==== Sys2Proof/Laws/Sequencer.lean ====
section
/-! SUPPORT. Sys2Proof/Laws/Sequencer.lean: what the steps of a flush can do (R31, R142, R143), and what the adapter hands
to the sequencer (R180). -/

namespace Sys2Proof.Machine

@[simp] theorem length_windowCmds (c : Config) (w : Window) : (windowCmds c w).length = 6 := rfl

@[simp] theorem length_dataTxs (fb : Memory) (idxs : List Nat) : (dataTxs fb idxs).length = idxs.length := by
  simp [dataTxs]

/-- R79: the six transactions of WindowCmds are command transactions. -/
theorem windowCmds_kind {c : Config} {w : Window} : ∀ tx ∈ windowCmds c w, tx.kind = .cmd := by
  simp [windowCmds, setColumnTxs, setPageTxs]

theorem dataTxs_kind {fb : Memory} {idxs : List Nat} : ∀ tx ∈ dataTxs fb idxs, tx.kind = .data := by
  simp [dataTxs]

section
variable {s : State} {q : Latches} {tx : Tx}

/-- R190: with no answer nothing changes. -/
theorem transact_nil (h : s.answers = []) : s.transact q tx = s := by simp [State.transact, h]

/-- R31 (2): an answer OK. -/
theorem transact_ok {later : List Answer} (h : s.answers = .ok :: later) :
    s.transact q tx = { s with answers := later, history := s.history ++ [⟨tx, .ok⟩],
                               windowContract := s.windowContract || breaksWindowContract q,
                               seq := .flushing { q with txpos := q.txpos + 1 } } := by
  simp [State.transact, h, State.record]

/-- R142: an answer FAIL. -/
theorem transact_fail {later : List Answer} (h : s.answers = .fail :: later) :
    s.transact q tx = { s with answers := later, history := s.history ++ [⟨tx, .fail⟩],
                               windowContract := s.windowContract || breaksWindowContract q,
                               seq := .idle, response := some (rspWord .busError 0),
                               responses := s.responses ++ [rspWord .busError 0] } := by
  simp [State.transact, h, State.record, State.raise, State.respond]

theorem flushStep_transact (h : q.txlist[q.txpos]? = some tx) : s.flushStep q = s.transact q tx := by
  simp [State.flushStep, h]

theorem flushStep_commit (h : q.txlist.length ≤ q.txpos) : s.flushStep q = s.commit := by
  simp [State.flushStep, List.getElem?_eq_none h]

/-- The step of FBCORE in FLUSHING is one of four: waiting, an OK, an abort, the Commit. -/
theorem flushStep_cases (s : State) (q : Latches) :
    (s.answers = [] ∧ q.txpos < q.txlist.length ∧ s.flushStep q = s) ∨
    (∃ tx later, q.txlist[q.txpos]? = some tx ∧ s.answers = .ok :: later ∧
      s.flushStep q = { s with answers := later, history := s.history ++ [⟨tx, .ok⟩],
                               windowContract := s.windowContract || breaksWindowContract q,
                               seq := .flushing { q with txpos := q.txpos + 1 } }) ∨
    (∃ tx later, q.txlist[q.txpos]? = some tx ∧ s.answers = .fail :: later ∧
      s.flushStep q = { s with answers := later, history := s.history ++ [⟨tx, .fail⟩],
                               windowContract := s.windowContract || breaksWindowContract q,
                               seq := .idle, response := some (rspWord .busError 0),
                               responses := s.responses ++ [rspWord .busError 0] }) ∨
    (q.txlist.length ≤ q.txpos ∧ s.flushStep q = s.commit) := by
  cases hx : q.txlist[q.txpos]? with
  | none => exact .inr (.inr (.inr ⟨List.getElem?_eq_none_iff.1 hx, flushStep_commit (List.getElem?_eq_none_iff.1 hx)⟩))
  | some tx =>
    rw [flushStep_transact hx]
    cases ha : s.answers with
    | nil => exact .inl ⟨rfl, (List.getElem?_eq_some_iff.1 hx).1, transact_nil ha⟩
    | cons a later =>
      cases a with
      | ok => exact .inr (.inl ⟨tx, later, rfl, rfl, transact_ok ha⟩)
      | fail => exact .inr (.inr (.inl ⟨tx, later, rfl, rfl, transact_fail ha⟩))

/-- The step that issues lone commands changes the phase, the answers to come and the history only. -/
theorem commandStep_frame (s : State) (p : List Tx) :
    ∃ q l h, s.commandStep p = { s with seq := q, answers := l, history := h } := by
  unfold State.commandStep
  split
  · exact ⟨_, _, _, rfl⟩
  · split
    · exact ⟨_, _, _, rfl⟩
    · exact ⟨_, _, _, rfl⟩
    · exact ⟨_, _, _, rfl⟩

/-- The adapter changes the phase only. -/
theorem emit_frame (s : State) (txs : List Tx) : ∃ q, s.emit txs = { s with seq := q } := by
  unfold State.emit; split <;> exact ⟨_, rfl⟩

theorem emit_idle (h : s.seq = .idle) (txs : List Tx) : s.emit txs = { s with seq := .commanding txs } := by
  simp [State.emit, h]

theorem emit_flushing (h : s.seq = .flushing q) (txs : List Tx) :
    s.emit txs = { s with seq := .flushing { q with txlist := q.txlist ++ txs } } := by
  simp [State.emit, h]

theorem emit_commanding {p : List Tx} (h : s.seq = .commanding p) (txs : List Tx) :
    s.emit txs = { s with seq := .commanding (p ++ txs) } := by
  simp [State.emit, h]

end

end Sys2Proof.Machine
end

