-- ==== Sys2Proof/Laws/Operands.lean ====
section
/-! SUPPORT. Sys2Proof/Laws/Operands.lean: the geometry of a well-formed configuration (R7, R51, R54) and the bits of a
byte after one of them is set or cleared (R100). -/

namespace Sys2Proof

theorem Config.wf_iff {c : Config} : c.wf = true ↔
    c.width = c.pageWidth ∧ c.height % 8 = 0 ∧ 8 ≤ c.height ∧ c.height ≤ 64 ∧ c.pageWidth = 128 ∧
      c.opcSetColumn ≠ c.opcSetPage ∧ c.coordW = 16 ∧ c.idxW = 32 := by
  simp [Config.wf, and_assoc]

section
variable {c : Config} (h : c.wf = true)
include h

theorem Config.wf_width : c.width = 128 := by
  obtain ⟨h1, -, -, -, h5, -⟩ := Config.wf_iff.1 h; omega

theorem Config.wf_pageWidth : c.pageWidth = 128 := (Config.wf_iff.1 h).2.2.2.2.1

theorem Config.wf_height : c.height = 8 * c.pages := by
  obtain ⟨-, h2, -⟩ := Config.wf_iff.1 h; simp only [Config.pages]; omega

theorem Config.wf_pages_pos : 1 ≤ c.pages := by
  obtain ⟨-, h2, h3, -⟩ := Config.wf_iff.1 h; simp only [Config.pages]; omega

theorem Config.wf_pages_le : c.pages ≤ 8 := by
  obtain ⟨-, h2, h3, h4, -⟩ := Config.wf_iff.1 h; simp only [Config.pages]; omega

theorem Config.wf_opcodes_ne : c.opcSetColumn ≠ c.opcSetPage := (Config.wf_iff.1 h).2.2.2.2.2.1

/-- R6, R73: `COORD_W`. -/
theorem Config.wf_coordW : c.coordW = 16 := (Config.wf_iff.1 h).2.2.2.2.2.2.1

/-- R6, R74: `IDX_W`. -/
theorem Config.wf_idxW : c.idxW = 32 := (Config.wf_iff.1 h).2.2.2.2.2.2.2

/-- R6: `N` is 128 bytes for each page. -/
theorem Config.wf_n : c.n = 128 * c.pages := by
  have hw := Config.wf_width h
  have hh := Config.wf_height h
  simp only [Config.n, hw, hh]; omega

theorem Config.wf_maxCol : c.maxCol = 127 := by simp [Config.maxCol, Config.wf_pageWidth h]

end

theorem Config.maxPage_eq (c : Config) : c.maxPage = c.pages - 1 := rfl

namespace Machine

theorem inb_iff {c : Config} {x y : Int} :
    inb c x y = true ↔ 0 ≤ x ∧ x < c.width ∧ 0 ≤ y ∧ y < c.height := by
  simp [inb, and_assoc]

theorem column_eq {c : Config} (h : c.wf = true) (i : Nat) : column c i = i % 128 := by
  simp [column, Config.wf_pageWidth h]

theorem page_eq {c : Config} (h : c.wf = true) (i : Nat) : page c i = i / 128 := by
  simp [page, Config.wf_pageWidth h]

theorem column_le {c : Config} (h : c.wf = true) (i : Nat) : column c i ≤ c.maxCol := by
  rw [column_eq h, Config.wf_maxCol h]; omega

theorem page_le {c : Config} (h : c.wf = true) {i : Nat} (hi : i < c.n) : page c i ≤ c.maxPage := by
  rw [Config.wf_n h] at hi
  rw [page_eq h, Config.maxPage_eq]; omega

/-- R138: pages are monotone in the index. -/
theorem page_mono {c : Config} {i j : Nat} (hij : i ≤ j) : page c i ≤ page c j := Nat.div_le_div_right hij

theorem pixelBit_lt (y : Int) : pixelBit y < 8 := Nat.mod_lt _ (by decide)

/-- R51: the index of an in-bounds pixel is an index of FB. -/
theorem pixelIndex_lt {c : Config} (h : c.wf = true) {x y : Int} (hb : inb c x y = true) :
    pixelIndex c x y < c.n := by
  obtain ⟨h0, h1, h2, h3⟩ := inb_iff.1 hb
  rw [Config.wf_width h] at h1
  rw [Config.wf_height h] at h3
  rw [Config.wf_n h]
  simp only [pixelIndex, Config.wf_width h]
  omega

/-- R54: the column and the page of a pixel's byte. -/
theorem pixelIndex_place {c : Config} (h : c.wf = true) {x y : Int} (hb : inb c x y = true) :
    column c (pixelIndex c x y) = x.toNat ∧ page c (pixelIndex c x y) = y.toNat / 8 := by
  obtain ⟨h0, h1, h2, h3⟩ := inb_iff.1 hb
  rw [Config.wf_width h] at h1
  rw [column_eq h, page_eq h]
  simp only [pixelIndex, Config.wf_width h]
  omega

theorem inWindow_iff {c : Config} {w : Window} {i : Nat} :
    inWindow c w i = true ↔ w.sc ≤ column c i ∧ column c i ≤ w.ec ∧ w.sp ≤ page c i ∧ page c i ≤ w.ep := by
  simp [inWindow, and_assoc]

/-- R100, R103: after SETPX's byte operation bit `k` is `on`, and every other bit is as before. -/
theorem getLsbD_putBit (old : Byte) {k : Nat} (hk : k < 8) (on : Bool) {b : Nat} (hb : b < 8) :
    (putBit old k on).getLsbD b = if b = k then on else old.getLsbD b := by
  have hone : ∀ k < 8, ∀ b < 8, (1#8 <<< k).getLsbD b = decide (b = k) := by decide
  have hff : ∀ b < 8, (255#8).getLsbD b = true := by decide
  have h1 := hone k hk b hb
  have h2 := hff b hb
  cases on
  · simp only [putBit, Bool.false_eq_true, if_false, BitVec.ofNat_eq_ofNat, BitVec.getLsbD_and,
      BitVec.getLsbD_xor, h1, h2]
    by_cases h : b = k <;> simp [h]
  · simp only [putBit, if_true, BitVec.ofNat_eq_ofNat, BitVec.getLsbD_or, h1]
    by_cases h : b = k <;> simp [h]

/-- A bit that is already as asked leaves the byte as it is. -/
theorem putBit_same {old : Byte} {k : Nat} (hk : k < 8) {on : Bool} (h : old.getLsbD k = on) :
    putBit old k on = old := by
  apply BitVec.eq_of_getLsbD_eq
  intro b hb
  rw [getLsbD_putBit old hk on hb]
  split <;> simp_all

/-- Two different bits of a byte are set or cleared in either order. -/
theorem putBit_comm {old : Byte} {k k' : Nat} (hk : k < 8) (hk' : k' < 8) (hne : k ≠ k') (on on' : Bool) :
    putBit (putBit old k on) k' on' = putBit (putBit old k' on') k on := by
  apply BitVec.eq_of_getLsbD_eq
  intro b hb
  rw [getLsbD_putBit _ hk' _ hb, getLsbD_putBit _ hk _ hb, getLsbD_putBit _ hk _ hb, getLsbD_putBit _ hk' _ hb]
  by_cases h1 : b = k
  · simp [h1, hne]
  · simp [h1]

end Machine

end Sys2Proof
end

