-- ==== Sys2Proof/Laws/UpdateEngine.lean ====
section
/-! SUPPORT. Sys2Proof/Laws/UpdateEngine.lean: what the comparator computes (R131 to R140) and what the acceptance of a
FLUSH or a FLUSHALL leaves (R134, R141, R145), said once. -/

namespace Sys2Proof.Machine

/-- R131: the members of the difference set. -/
theorem mem_diffSet {c : Config} {fb snap : Memory} {i : Nat} :
    i ∈ diffSet c fb snap ↔ i < c.n ∧ fb.read i ≠ snap.read i := by
  simp [diffSet]

theorem mem_diffSet_state {s : State} {i : Nat} : i ∈ diffSet s.cfg s.fb s.snap ↔ s.differsAt i := mem_diffSet

theorem diffSet_pairwise (c : Config) (fb snap : Memory) : (diffSet c fb snap).Pairwise (· < ·) :=
  List.Pairwise.filter _ List.pairwise_lt_range

theorem getLast_greatest {l : List Nat} (h : l.Pairwise (· < ·)) (hne : l ≠ []) :
    ∀ i ∈ l, i ≤ l.getLast hne := by
  induction l with
  | nil => exact absurd rfl hne
  | cons a l ih =>
    obtain ⟨h1, h2⟩ := List.pairwise_cons.1 h
    intro i hi
    cases l with
    | nil => simp_all
    | cons b l =>
      rw [List.getLast_cons (by simp)]
      rcases List.mem_cons.1 hi with rfl | hi
      · exact Nat.le_of_lt (h1 _ (List.getLast_mem _))
      · exact ih h2 (by simp) i hi

theorem head_least {a : Nat} {l : List Nat} (h : (a :: l).Pairwise (· < ·)) : ∀ i ∈ a :: l, a ≤ i := by
  intro i hi
  rcases List.mem_cons.1 hi with rfl | hi
  · exact Nat.le_refl _
  · exact Nat.le_of_lt ((List.pairwise_cons.1 h).1 i hi)

theorem leastOf_spec (a : Nat) (l : List Nat) :
    (leastOf a l = a ∨ leastOf a l ∈ l) ∧ leastOf a l ≤ a ∧ ∀ i ∈ l, leastOf a l ≤ i := by
  induction l generalizing a with
  | nil => simp [leastOf]
  | cons b l ih =>
    have h := ih (min a b)
    simp only [leastOf, List.foldl_cons] at h ⊢
    obtain ⟨h1, h2, h3⟩ := h
    refine ⟨?_, by omega, ?_⟩
    · rcases h1 with h1 | h1
      · rw [h1]; rcases Nat.le_total a b with h | h <;> simp [h]
      · exact Or.inr (List.mem_cons_of_mem _ h1)
    · intro i hi
      rcases List.mem_cons.1 hi with rfl | hi
      · omega
      · exact h3 i hi

theorem greatestOf_spec (a : Nat) (l : List Nat) :
    (greatestOf a l = a ∨ greatestOf a l ∈ l) ∧ a ≤ greatestOf a l ∧ ∀ i ∈ l, i ≤ greatestOf a l := by
  induction l generalizing a with
  | nil => simp [greatestOf]
  | cons b l ih =>
    have h := ih (max a b)
    simp only [greatestOf, List.foldl_cons] at h ⊢
    obtain ⟨h1, h2, h3⟩ := h
    refine ⟨?_, by omega, ?_⟩
    · rcases h1 with h1 | h1
      · rw [h1]; rcases Nat.le_total a b with h | h <;> simp [h]
      · exact Or.inr (List.mem_cons_of_mem _ h1)
    · intro i hi
      rcases List.mem_cons.1 hi with rfl | hi
      · omega
      · exact h3 i hi

/-- Two rising lists with the same members are the same list. -/
theorem eq_of_pairwise_of_mem {l l' : List Nat} (h : l.Pairwise (· < ·)) (h' : l'.Pairwise (· < ·))
    (hm : ∀ i, i ∈ l ↔ i ∈ l') : l = l' :=
  List.Perm.eq_of_pairwise (fun a _ _ _ h1 h2 => absurd (Nat.lt_trans h1 h2) (Nat.lt_irrefl a)) h h'
    ((List.perm_ext_iff_of_nodup (h.imp Nat.ne_of_lt) (h'.imp Nat.ne_of_lt)).2 hm)

/-- What a FLUSH with a difference has latched (R132, R133, R135 to R137, R140, R141). -/
structure Comparison (s : State) (q : Latches) : Prop where
  start : q.txpos = 0
  firstDiffers : s.differsAt q.first
  firstLeast : ∀ i, s.differsAt i → q.first ≤ i
  positive : 0 < q.lastx
  lastDiffers : s.differsAt (q.lastx - 1)
  lastGreatest : ∀ i, s.differsAt i → i < q.lastx
  startPage : q.win.sp = page s.cfg q.first
  endPage : q.win.ep = page s.cfg (q.lastx - 1)
  corners : s.cfg.windowPolicy = .corners →
    q.win.sc = column s.cfg q.first ∧ q.win.ec = column s.cfg (q.lastx - 1)
  boundingLeast : s.cfg.windowPolicy = .bounding →
    (∃ i, s.differsAt i ∧ column s.cfg i = q.win.sc) ∧ ∀ i, s.differsAt i → q.win.sc ≤ column s.cfg i
  boundingGreatest : s.cfg.windowPolicy = .bounding →
    (∃ i, s.differsAt i ∧ column s.cfg i = q.win.ec) ∧ ∀ i, s.differsAt i → column s.cfg i ≤ q.win.ec
  list : q.txlist = windowCmds s.cfg q.win ++ dataTxs s.fb (streamList s.cfg q.first q.lastx q.win)

namespace Comparison
variable {s : State} {q : Latches}

theorem lastBound (h : Comparison s q) : q.lastx ≤ s.cfg.n := by
  have h1 := h.lastDiffers.1; have h2 := h.positive; omega

theorem ordered (h : Comparison s q) : q.first < q.lastx := h.lastGreatest _ h.firstDiffers

theorem pages (h : Comparison s q) : q.win.sp ≤ q.win.ep := by
  rw [h.startPage, h.endPage]
  have := h.ordered
  exact page_mono (by omega)

/-- R139: the window columns are columns of the controller, under either policy. -/
theorem columns (h : Comparison s q) (hc : s.cfg.wf = true) : q.win.sc ≤ s.cfg.maxCol ∧ q.win.ec ≤ s.cfg.maxCol := by
  cases hp : s.cfg.windowPolicy with
  | corners =>
    obtain ⟨h1, h2⟩ := h.corners hp
    rw [h1, h2]; exact ⟨column_le hc _, column_le hc _⟩
  | bounding =>
    obtain ⟨⟨i, -, hi⟩, -⟩ := h.boundingLeast hp
    obtain ⟨⟨j, -, hj⟩, -⟩ := h.boundingGreatest hp
    rw [← hi, ← hj]; exact ⟨column_le hc _, column_le hc _⟩

theorem endPage_le (h : Comparison s q) (hc : s.cfg.wf = true) : q.win.ep ≤ s.cfg.maxPage := by
  rw [h.endPage]; exact page_le hc h.lastDiffers.1

theorem bounding_columns (h : Comparison s q) (hp : s.cfg.windowPolicy = .bounding) : q.win.sc ≤ q.win.ec :=
  Nat.le_trans ((h.boundingLeast hp).2 _ h.firstDiffers) ((h.boundingGreatest hp).2 _ h.firstDiffers)

/-- A difference lies in the pages of the window (R138). -/
theorem page_bounds (h : Comparison s q) {i : Nat} (hi : s.differsAt i) :
    q.win.sp ≤ page s.cfg i ∧ page s.cfg i ≤ q.win.ep := by
  rw [h.startPage, h.endPage]
  have h1 := h.firstLeast i hi
  have h2 := h.lastGreatest i hi
  exact ⟨page_mono h1, page_mono (by omega)⟩

end Comparison

/-- R139: the last index of a window within the geometry is an index of FB. -/
theorem windowEnd_lt {c : Config} (hc : c.wf = true) {w : Window} (h1 : w.ec ≤ c.maxCol) (h2 : w.ep ≤ c.maxPage) :
    windowEnd c w < c.n := by
  rw [Config.wf_maxCol hc] at h1
  rw [Config.maxPage_eq] at h2
  have h3 := Config.wf_pages_pos hc
  rw [Config.wf_n hc, windowEnd, Config.wf_pageWidth hc]
  omega

theorem openFlush_eq {s : State} {first lastx : Nat} {w : Window} {idxs : List Nat}
    (h : windowEnd s.cfg w < s.cfg.n) : s.openFlush first lastx w idxs =
      .next { s with seq := .flushing { txlist := windowCmds s.cfg w ++ dataTxs s.fb idxs, txpos := 0,
                                        first := first, lastx := lastx, win := w } } := by
  simp [State.openFlush, h]

/-- R134: a FLUSH that finds no difference. -/
theorem execFlush_unchanged {s : State} (h : ∀ i, ¬ s.differsAt i) : execFlush s = .next s.flushUnchanged := by
  have : diffSet s.cfg s.fb s.snap = [] := List.eq_nil_iff_forall_not_mem.2 fun i hi => h i (mem_diffSet_state.1 hi)
  simp [execFlush, this]

/-- R141: a FLUSH that finds a difference. -/
theorem execFlush_changed {s : State} (hc : s.cfg.wf = true) {k : Nat} (hk : s.differsAt k) :
    ∃ q, execFlush s = .next { s with seq := .flushing q } ∧ Comparison s q := by
  have hmem := fun i => mem_diffSet_state (s := s) (i := i)
  have hs := diffSet_pairwise s.cfg s.fb s.snap
  cases hd : diffSet s.cfg s.fb s.snap with
  | nil => rw [← hmem, hd] at hk; exact absurd hk (by simp)
  | cons a l =>
    rw [hd] at hs
    rw [hd] at hmem
    have hleast : ∀ i, s.differsAt i → a ≤ i := fun i hi => head_least hs i ((hmem i).2 hi)
    have hgreat : ∀ i, s.differsAt i → i ≤ (a :: l).getLast (by simp) :=
      fun i hi => getLast_greatest hs (by simp) i ((hmem i).2 hi)
    have ha : s.differsAt a := (hmem a).1 (by simp)
    have hz : s.differsAt ((a :: l).getLast (by simp)) := (hmem _).1 (List.getLast_mem _)
    obtain ⟨hl1, hl2, hl3⟩ := leastOf_spec (column s.cfg a) ((a :: l).map (column s.cfg))
    obtain ⟨hg1, hg2, hg3⟩ := greatestOf_spec (column s.cfg a) ((a :: l).map (column s.cfg))
    have comp : Comparison s
        { txlist := windowCmds s.cfg (flushWindow s.cfg (a :: l) a ((a :: l).getLast (by simp))) ++
            dataTxs s.fb (streamList s.cfg a ((a :: l).getLast (by simp) + 1)
              (flushWindow s.cfg (a :: l) a ((a :: l).getLast (by simp)))),
          txpos := 0, first := a, lastx := (a :: l).getLast (by simp) + 1,
          win := flushWindow s.cfg (a :: l) a ((a :: l).getLast (by simp)) } := by
      constructor
      · rfl
      · exact ha
      · exact hleast
      · exact Nat.succ_pos _
      · exact hz
      · exact fun i hi => Nat.lt_succ_of_le (hgreat i hi)
      · simp only [flushWindow]; split <;> rfl
      · simp only [flushWindow]; split <;> rfl
      · intro hp; simp [flushWindow, hp]
      · intro hp
        simp only [flushWindow, hp]
        refine ⟨?_, fun i hi => hl3 _ (List.mem_map_of_mem ((hmem i).2 hi))⟩
        rcases hl1 with h | h
        · exact ⟨a, ha, h.symm⟩
        · obtain ⟨i, hi, he⟩ := List.mem_map.1 h
          exact ⟨i, (hmem i).1 hi, he⟩
      · intro hp
        simp only [flushWindow, hp]
        refine ⟨?_, fun i hi => hg3 _ (List.mem_map_of_mem ((hmem i).2 hi))⟩
        rcases hg1 with h | h
        · exact ⟨a, ha, h.symm⟩
        · obtain ⟨i, hi, he⟩ := List.mem_map.1 h
          exact ⟨i, (hmem i).1 hi, he⟩
      · rfl
    refine ⟨_, ?_, comp⟩
    have hend := windowEnd_lt hc (comp.columns hc).2 (comp.endPage_le hc)
    simp only [execFlush, hd]
    exact openFlush_eq hend

/-- R140, CORNERS: the members of the stream list. -/
theorem mem_streamList_corners {c : Config} (hp : c.windowPolicy = .corners) {first lastx : Nat} {w : Window} {i : Nat} :
    i ∈ streamList c first lastx w ↔ first ≤ i ∧ i < lastx ∧ inWindow c w i = true := by
  simp only [streamList, hp, List.mem_filter, List.mem_range'_1]
  constructor
  · rintro ⟨⟨h1, h2⟩, h3⟩; exact ⟨h1, by omega, h3⟩
  · rintro ⟨h1, h2, h3⟩; exact ⟨⟨h1, by omega⟩, h3⟩

/-- R140, BOUNDING: the members of the stream list are the indices of the window. -/
theorem mem_streamList_bounding {c : Config} (hc : c.wf = true) (hp : c.windowPolicy = .bounding) {first lastx : Nat}
    {w : Window} (hw : w.ec ≤ c.maxCol) {i : Nat} :
    i ∈ streamList c first lastx w ↔ inWindow c w i = true := by
  rw [Config.wf_maxCol hc] at hw
  simp only [streamList, hp, List.mem_flatMap, List.mem_map, List.mem_range'_1, inWindow_iff, column_eq hc, page_eq hc,
    Config.wf_pageWidth hc]
  constructor
  · rintro ⟨p, ⟨h1, h2⟩, col, ⟨h3, h4⟩, rfl⟩; omega
  · rintro ⟨h1, h2, h3, h4⟩
    exact ⟨i / 128, ⟨h3, by omega⟩, i % 128, ⟨h1, by omega⟩, by omega⟩

/-- R140: the stream list rises. -/
theorem streamList_pairwise {c : Config} (hc : c.wf = true) {first lastx : Nat} {w : Window} (hw : w.ec ≤ c.maxCol) :
    (streamList c first lastx w).Pairwise (· < ·) := by
  rw [Config.wf_maxCol hc] at hw
  cases hp : c.windowPolicy with
  | corners =>
    simp only [streamList, hp]
    exact List.Pairwise.filter _ List.pairwise_lt_range'
  | bounding =>
    simp only [streamList, hp, Config.wf_pageWidth hc]
    rw [List.pairwise_flatMap]
    constructor
    · intro p hp
      rw [List.pairwise_map]
      exact (List.pairwise_lt_range' (s := w.sc) (n := w.ec + 1 - w.sc)).imp fun h => by omega
    · refine (List.pairwise_lt_range' (s := w.sp) (n := w.ep + 1 - w.sp)).imp ?_
      intro p p' hpp a ha b hb
      obtain ⟨x, hx, rfl⟩ := List.mem_map.1 ha
      obtain ⟨y, hy, rfl⟩ := List.mem_map.1 hb
      rw [List.mem_range'_1] at hx
      omega

/-- R202: every index that a flush streams is an index of FB. -/
theorem streamList_lt {c : Config} (hc : c.wf = true) {first lastx : Nat} {w : Window} (hl : lastx ≤ c.n)
    (hw : w.ec ≤ c.maxCol) (he : w.ep ≤ c.maxPage) : ∀ i ∈ streamList c first lastx w, i < c.n := by
  intro i hi
  cases hp : c.windowPolicy with
  | corners => have := (mem_streamList_corners hp).1 hi; omega
  | bounding =>
    obtain ⟨-, -, -, h4⟩ := inWindow_iff.1 ((mem_streamList_bounding hc hp hw).1 hi)
    rw [page_eq hc] at h4
    rw [Config.maxPage_eq] at he
    have := Config.wf_pages_pos hc
    rw [Config.wf_n hc]; omega

/-- A FLUSH with a difference leaves the sequencer in its shape. -/
theorem Comparison.shape {s : State} {q : Latches} (h : Comparison s q) (hc : s.cfg.wf = true) :
    FlushShape s.cfg s.fb q where
  cursor := by rw [h.start]; exact Nat.zero_le _
  ordered := h.ordered
  bounded := h.lastBound
  startColumn := (h.columns hc).1
  endColumn := (h.columns hc).2
  pages := h.pages
  endPage := h.endPage_le hc
  columns := h.bounding_columns
  list := ⟨_, streamList_pairwise hc (h.columns hc).2,
    streamList_lt hc h.lastBound (h.columns hc).2 (h.endPage_le hc), h.list⟩

/-- The latches and the list of a FLUSHALL (R28 (c), R146). -/
def fullLatches (s : State) : Latches where
  txlist := windowCmds s.cfg (fullWindow s.cfg) ++ dataTxs s.fb (List.range s.cfg.n)
  txpos := 0
  first := 0
  lastx := s.cfg.n
  win := fullWindow s.cfg

/-- R145: the acceptance of a FLUSHALL. -/
theorem execFlushall_eq {s : State} (hc : s.cfg.wf = true) :
    execFlushall s = .next { s with seq := .flushing (fullLatches s) } :=
  openFlush_eq (windowEnd_lt hc
    (by simp only [fullWindow, Config.maxCol, Config.wf_width hc, Config.wf_pageWidth hc]; omega)
    (by simp [fullWindow, Config.maxPage]))

theorem fullLatches_shape {s : State} (hc : s.cfg.wf = true) : FlushShape s.cfg s.fb (fullLatches s) where
  cursor := Nat.zero_le _
  ordered := by
    have := Config.wf_pages_pos hc; simp only [fullLatches, Config.wf_n hc]; omega
  bounded := Nat.le_refl _
  startColumn := Nat.zero_le _
  endColumn := by simp only [fullLatches, fullWindow, Config.maxCol, Config.wf_width hc, Config.wf_pageWidth hc]; omega
  pages := Nat.zero_le _
  endPage := by simp [fullLatches, fullWindow, Config.maxPage]
  columns := fun _ => Nat.zero_le _
  list := ⟨_, List.pairwise_lt_range, fun i hi => by simpa using hi, rfl⟩

end Sys2Proof.Machine
end

