-- ==== Sys2Proof/Laws/Step.lean ====
section
/-! SUPPORT. Sys2Proof/Laws/Step.lean: what a step can do, said once: the reset, or the step its phase calls for. -/

namespace Sys2Proof.Machine

section
variable {s t : State}

@[simp] theorem sampled_seq_flushing {q : Latches} : s.sampled.seq = .flushing q ↔ s.seq = .flushing q := Iff.rfl

/-- R230: a step that finds the reset line asserted. -/
theorem step_reset (hc : s.cfg.wf = true) {later : List Bool} (h : s.resetLine = true :: later) :
    step s = .next { s with resetLine := later }.resetCore := by
  simp [step, hc, h]

/-- R31: a step that does not find the reset line asserted. -/
theorem step_noReset (hc : s.cfg.wf = true) (h : s.noReset) : step s = s.sampled.advance := by
  unfold step State.sampled
  cases hl : s.resetLine with
  | nil =>
    have : { s with resetLine := [] } = s := by rw [← hl]
    simp [hc, this]
  | cons b later =>
    cases b with
    | false => simp [hc]
    | true => simp [State.noReset, hl] at h

/-- A step that answers a next state is a reset or the step of FBCORE. -/
theorem step_next (h : step s = .next t) : s.cfg.wf = true ∧
    ((∃ later, s.resetLine = true :: later ∧ t = { s with resetLine := later }.resetCore) ∨
      (s.noReset ∧ s.sampled.advance = .next t)) := by
  have hc : s.cfg.wf = true := by
    by_contra hc; simp [step, hc] at h
  refine ⟨hc, ?_⟩
  by_cases hr : s.noReset
  · exact .inr ⟨hr, by rw [← h, step_noReset hc hr]⟩
  · obtain ⟨later, hl⟩ : ∃ later, s.resetLine = true :: later := by
      unfold State.noReset at hr
      cases hl : s.resetLine with
      | nil => simp [hl] at hr
      | cons b later => exact ⟨later, by simpa [hl] using hr⟩
    rw [step_reset hc hl] at h
    exact .inl ⟨later, hl, by cases h; rfl⟩

theorem advance_flushing {q : Latches} (h : s.seq = .flushing q) : s.advance = .next (s.flushStep q) := by
  simp [State.advance, h]

theorem advance_commanding {p : List Tx} (h : s.seq = .commanding p) : s.advance = .next (s.commandStep p) := by
  simp [State.advance, h]

theorem advance_request (h : s.seq = .idle) (hc : s.command = none) {w : ReqWord} {later : List ReqWord}
    (hr : s.requests = w :: later) : s.advance = s.accept w later := by
  simp [State.advance, h, hc, hr]

theorem advance_command (h : s.seq = .idle) {w : CtrlWord} (hc : s.command = some w) :
    s.advance = s.runCommand w := by
  simp [State.advance, h, hc]

theorem advance_idle (h : s.seq = .idle) (hc : s.command = none) (hr : s.requests = []) : s.advance = .next s := by
  simp [State.advance, h, hc, hr]

theorem accept_ok {w : ReqWord} {later : List ReqWord} {i : Instr} (h : decodeReq w = .ok i) :
    s.accept w later = exec i (s.takeRequest later) := by
  simp [State.accept, h]

theorem accept_illegal {w : ReqWord} {later : List ReqWord} {e : Reject} (h : decodeReq w = .error e) :
    s.accept w later = .next ((s.takeRequest later).raise .illegalRequest) := by
  simp [State.accept, h]

theorem runCommand_ok {w : CtrlWord} {i : Instr} (h : decodeCtrl s.cfg w = .ok i) :
    s.runCommand w = exec i s.takeCommand := by
  simp [State.runCommand, h]

end

/-- The step of FBCORE, by its phase and its inputs. -/
theorem advance_next {s t : State} (h : s.advance = .next t) :
    (∃ q, s.seq = .flushing q ∧ t = s.flushStep q) ∨
    (∃ p, s.seq = .commanding p ∧ t = s.commandStep p) ∨
    (s.seq = .idle ∧ ∃ w, s.command = some w ∧ s.runCommand w = .next t) ∨
    (s.seq = .idle ∧ s.command = none ∧ ∃ w later, s.requests = w :: later ∧ s.accept w later = .next t) ∨
    (s.seq = .idle ∧ s.command = none ∧ s.requests = [] ∧ t = s) := by
  unfold State.advance at h
  split at h
  · exact .inl ⟨_, by assumption, by cases h; rfl⟩
  · exact .inr (.inl ⟨_, by assumption, by cases h; rfl⟩)
  · split at h
    · exact .inr (.inr (.inl ⟨by assumption, _, by assumption, h⟩))
    · exact .inr (.inr (.inr (.inl ⟨by assumption, by assumption, _, _, by assumption, h⟩)))
    · exact .inr (.inr (.inr (.inr ⟨by assumption, by assumption, by assumption, by cases h; rfl⟩)))

/-- R75: the decoder of request words gives requests, never a controller command. -/
theorem decodeReq_isRequest {w : ReqWord} {i : Instr} (h : decodeReq w = .ok i) : i.isRequest = true := by
  unfold decodeReq at h
  repeat' split at h
  all_goals cases h
  all_goals rfl

/-- R31 (1): what the acceptance of a request word can leave, in a well-formed configuration. -/
theorem accept_next {s t : State} {w : ReqWord} {later : List ReqWord} (h : s.accept w later = .next t) :
    (∃ e, decodeReq w = .error e ∧ t = (s.takeRequest later).raise .illegalRequest) ∨
    (∃ i, decodeReq w = .ok i ∧ i.isRequest = true ∧ exec i (s.takeRequest later) = .next t) := by
  unfold State.accept at h
  split at h
  · exact .inr ⟨_, by assumption, decodeReq_isRequest (by assumption), h⟩
  · exact .inl ⟨_, by assumption, by cases h; rfl⟩

section
variable {s t : State}

/-- R203: when the next step accepts an illegal word. -/
theorem acceptsIllegal_iff {w : ReqWord} : s.acceptsIllegal = some w ↔
    s.noReset ∧ s.seq = .idle ∧ s.command = none ∧ ∃ later e, s.requests = w :: later ∧ decodeReq w = .error e := by
  unfold State.acceptsIllegal State.noReset
  constructor
  · intro h
    split at h
    · cases h
    · refine ⟨by assumption, ?_⟩
      split at h
      · split at h <;> cases h
        exact ⟨by assumption, by assumption, _, _, by assumption, by assumption⟩
      · cases h
  · rintro ⟨hr, hs, hc, later, e, hq, he⟩
    rw [if_neg hr]
    simp [hs, hc, hq, he]

theorem acceptsIllegal_of_busy (h : s.seq ≠ .idle) : s.acceptsIllegal = none :=
  Option.eq_none_iff_forall_ne_some.2 fun _ hw => h (acceptsIllegal_iff.1 hw).2.1

theorem acceptsIllegal_of_command {w : CtrlWord} (h : s.command = some w) : s.acceptsIllegal = none :=
  Option.eq_none_iff_forall_ne_some.2 fun _ hw => by simpa [h] using (acceptsIllegal_iff.1 hw).2.2.1

theorem acceptsIllegal_of_legal {w : ReqWord} {later : List ReqWord} {i : Instr} (h : s.requests = w :: later)
    (hd : decodeReq w = .ok i) : s.acceptsIllegal = none := by
  refine Option.eq_none_iff_forall_ne_some.2 fun u hu => ?_
  obtain ⟨-, -, -, l, e, hq, he⟩ := acceptsIllegal_iff.1 hu
  rw [h] at hq
  cases hq
  rw [hd] at he
  cases he

/-- A step of a run that accepts no illegal word. -/
theorem run_succ (h : step s = .next t) (hw : s.acceptsIllegal = none) (k : Nat) : run (k + 1) s = run k t := by
  simp [run, h, hw]

/-- R100: SETPX on an in-bounds pixel. -/
theorem execSetpx_inb (hc : s.cfg.wf = true) {x y : Int} (hb : inb s.cfg x y = true) (on : Bool) :
    execSetpx x y on s = .next ((s.writeFB (pixelIndex s.cfg x y)
      (putBit (s.fb.read (pixelIndex s.cfg x y)) (pixelBit y) on)).respond .ok 0) := by
  simp [execSetpx, hb, State.readFB, pixelIndex_lt hc hb]

/-- R104: SETPX on an out-of-bounds pixel. -/
theorem execSetpx_oob {x y : Int} (hb : inb s.cfg x y = false) (on : Bool) :
    execSetpx x y on s = .next (s.respond .ok 0) := by
  simp [execSetpx, hb]

/-- R102: BYTEAT on an index of FB. -/
theorem execByteat_lt {idx : Nat} (h : idx < s.cfg.n) : execByteat idx s = .next (s.respond .ok (s.fb.read idx)) := by
  simp [execByteat, State.readFB, h]

/-- R202: BYTEAT on any other index. -/
theorem execByteat_ge {idx : Nat} (h : s.cfg.n ≤ idx) : execByteat idx s = .next (s.raise .outOfRange) := by
  simp [execByteat, State.readFB, Nat.not_lt.2 h]

/-- What a request can leave (R100 to R102, R134, R141, R145), in a well-formed configuration. -/
theorem exec_request_cases (hc : s.cfg.wf = true) {i : Instr} (hi : i.isRequest = true) :
    (∃ k v, k < s.cfg.n ∧ exec i s = .next ((s.writeFB k v).respond .ok 0)) ∨
    (∃ d, exec i s = .next (s.respond .ok d)) ∨
    exec i s = .next ({ s with fb := Memory.zeros }.respond .ok 0) ∨
    (∃ idx, i = .byteat idx ∧ s.cfg.n ≤ idx ∧ exec i s = .next (s.raise .outOfRange)) ∨
    (∃ q, q.txpos = 0 ∧ FlushShape s.cfg s.fb q ∧ exec i s = .next { s with seq := .flushing q }) := by
  cases i with
  | setpx x y on =>
    by_cases hb : inb s.cfg x y = true
    · exact .inl ⟨_, _, pixelIndex_lt hc hb, execSetpx_inb hc hb on⟩
    · exact .inr (.inl ⟨0, execSetpx_oob (by simpa using hb) on⟩)
  | clear => exact .inr (.inr (.inl rfl))
  | byteat idx =>
    by_cases h : idx < s.cfg.n
    · exact .inr (.inl ⟨_, execByteat_lt h⟩)
    · exact .inr (.inr (.inr (.inl ⟨idx, rfl, Nat.not_lt.1 h, execByteat_ge (Nat.not_lt.1 h)⟩)))
  | flush =>
    by_cases h : ∃ k, s.differsAt k
    · obtain ⟨k, hk⟩ := h
      obtain ⟨q, hq, hcmp⟩ := execFlush_changed hc hk
      exact .inr (.inr (.inr (.inr ⟨q, hcmp.start, hcmp.shape hc, hq⟩)))
    · have he : exec .flush s = .next s.flushUnchanged := execFlush_unchanged fun i hi => h ⟨i, hi⟩
      cases hn : s.cfg.nodiffClears with
      | true => exact .inr (.inr (.inl (by rw [he]; simp [State.flushUnchanged, hn])))
      | false => exact .inr (.inl ⟨0, by rw [he]; simp [State.flushUnchanged, hn]⟩)
  | flushall => exact .inr (.inr (.inr (.inr ⟨_, rfl, fullLatches_shape hc, execFlushall_eq hc⟩)))
  | setColumnAddress _ _ => cases hi
  | setPageAddress _ _ => cases hi

end

/-- No instruction changes the configuration, SNAP, the history, the inputs other than those its step has taken, or the
recorded fault: these are the business of the sequencer's steps and of a reset. -/
theorem exec_frame {s t : State} {i : Instr} (h : exec i s = .next t) :
    t.cfg = s.cfg ∧ t.snap = s.snap ∧ t.history = s.history ∧ t.answers = s.answers ∧ t.requests = s.requests ∧
      t.resetLine = s.resetLine ∧ t.windowContract = s.windowContract ∧ t.command = s.command := by
  cases i with
  | setpx x y on =>
    simp only [exec, execSetpx] at h
    split at h
    · split at h <;> cases h
      simp
    · cases h; simp
  | clear => simp only [exec, execClear] at h; cases h; simp
  | byteat idx => simp only [exec, execByteat] at h; split at h <;> cases h <;> simp
  | flush =>
    simp only [exec, execFlush] at h
    split at h
    · cases h; simp
    · simp only [State.openFlush] at h
      split at h <;> cases h
      simp
  | flushall =>
    simp only [exec, execFlushall, State.openFlush] at h
    split at h <;> cases h
    simp
  | setColumnAddress a b =>
    simp only [exec, execSetColumnAddress] at h
    cases h
    obtain ⟨q, hq⟩ := emit_frame s (setColumnTxs s.cfg a b)
    rw [hq]; simp
  | setPageAddress a b =>
    simp only [exec, execSetPageAddress] at h
    cases h
    obtain ⟨q, hq⟩ := emit_frame s (setPageTxs s.cfg a b)
    rw [hq]; simp

/-- A lone command that answers a next state is a controller command. -/
theorem runCommand_next {s t : State} {w : CtrlWord} (h : s.runCommand w = .next t) :
    ∃ i, decodeCtrl s.cfg w = .ok i ∧ exec i s.takeCommand = .next t := by
  unfold State.runCommand at h
  split at h
  · exact ⟨_, by assumption, h⟩
  · cases h

end Sys2Proof.Machine
end

