-- ==== Sys2Proof/Laws/Invariant.lean ====
section
/-! SUPPORT. Sys2Proof/Laws/Invariant.lean: the named operations keep the invariant of the machine (Safety.lean). -/

namespace Sys2Proof.Machine

theorem legalResponse_append {l : List RspWord} (h : ∀ r ∈ l, legalResponse r) (st : Status) (d : Byte)
    (hd : st ≠ .ok → d = 0) : ∀ r ∈ l ++ [rspWord st d], legalResponse r := by
  intro r hr
  rcases List.mem_append.1 hr with hr | hr
  · exact h r hr
  · rw [List.mem_singleton] at hr
    exact ⟨st, d, hr, hd⟩

namespace State.Inv
variable {s : State}

theorem sampled (h : s.Inv) : s.sampled.Inv :=
  ⟨h.cfg, h.fbForm, h.fbSize, h.snapForm, h.snapSize, h.slot, h.phase, h.legal⟩

theorem commit (h : s.Inv) : s.commit.Inv :=
  ⟨h.cfg, rfl, rfl, h.fbForm, h.fbSize, h.slot, trivial, legalResponse_append h.legal _ _ (by simp)⟩

theorem raise (h : s.Inv) (e : Status) : (s.raise e).Inv :=
  ⟨h.cfg, h.fbForm, h.fbSize, h.snapForm, h.snapSize, h.slot, trivial, legalResponse_append h.legal _ _ (by simp)⟩

theorem takeRequest (h : s.Inv) (hs : s.seq = .idle) (later : List ReqWord) : (s.takeRequest later).Inv :=
  ⟨h.cfg, h.fbForm, h.fbSize, h.snapForm, h.snapSize, h.slot, by simp [State.seqOk, hs], h.legal⟩

/-- The phase of lone commands is ruled out. -/
theorem not_commanding (h : s.Inv) (p : List Tx) : s.seq ≠ .commanding p := fun hs => by
  have := h.phase; simp [State.seqOk, hs] at this

theorem shape (h : s.Inv) {q : Latches} (hs : s.seq = .flushing q) : FlushShape s.cfg s.fb q := by
  have := h.phase; simp only [State.seqOk, hs] at this; exact this.2

theorem flushStep (h : s.Inv) {q : Latches} (hs : s.seq = .flushing q) : (s.flushStep q).Inv := by
  have hp := h.phase
  simp only [State.seqOk, hs] at hp
  rcases flushStep_cases s q with ⟨-, -, he⟩ | ⟨tx, later, hx, ha, he⟩ | ⟨tx, later, hx, ha, he⟩ | ⟨-, he⟩
  · rw [he]; exact h
  · rw [he]
    exact ⟨h.cfg, h.fbForm, h.fbSize, h.snapForm, h.snapSize, h.slot,
      ⟨hp.1, { hp.2 with cursor := (List.getElem?_eq_some_iff.1 hx).1 }⟩, h.legal⟩
  · rw [he]
    exact ⟨h.cfg, h.fbForm, h.fbSize, h.snapForm, h.snapSize, h.slot, trivial,
      legalResponse_append h.legal _ _ (by simp)⟩
  · rw [he]; exact h.commit

/-- A request that is accepted in IDLE, the previous response gone from the port, keeps the invariant. -/
theorem exec_request {t : State} (h : s.Inv) (hs : s.seq = .idle) (hr : s.response = none) {i : Instr}
    (hi : i.isRequest = true) (he : exec i s = .next t) : t.Inv := by
  have legal := fun st d => legalResponse_append h.legal st d
  rcases exec_request_cases h.cfg hi with ⟨k, v, hk, e⟩ | ⟨d, e⟩ | e | ⟨idx, -, -, e⟩ | ⟨q, -, hq, e⟩
  · rw [e] at he; cases he
    exact ⟨h.cfg, Memory.wf_write h.fbForm _ _, Memory.within_write h.fbSize hk _, h.snapForm, h.snapSize, h.slot,
      by simp [State.seqOk, hs], legal _ _ (by simp)⟩
  · rw [e] at he; cases he
    exact ⟨h.cfg, h.fbForm, h.fbSize, h.snapForm, h.snapSize, h.slot, by simp [State.seqOk, hs], legal _ _ (by simp)⟩
  · rw [e] at he; cases he
    exact ⟨h.cfg, rfl, rfl, h.snapForm, h.snapSize, h.slot, by simp [State.seqOk, hs], legal _ _ (by simp)⟩
  · rw [e] at he; cases he
    exact h.raise _
  · rw [e] at he; cases he
    exact ⟨h.cfg, h.fbForm, h.fbSize, h.snapForm, h.snapSize, h.slot, ⟨hr, hq⟩, h.legal⟩

end State.Inv

end Sys2Proof.Machine
end

