-- ==== Sys2Proof/Laws/PerInstr.lean ====
section
/-! SUPPORT. Sys2Proof/Laws/PerInstr.lean: the family `TableRow`, one lemma per instruction: the encoder's word agrees with
the mask and pattern of the instruction's row of spec/opcode_table.json. -/

namespace Sys2Proof.Laws.TableRow

/-- The word `e`, in the format of its row, agrees with the row's mask and pattern. -/
def Matches (e : Encoded) (mask pattern : Nat) : Prop :=
  match e with
  | .req w => w &&& BitVec.ofNat 64 mask = BitVec.ofNat 64 pattern
  | .ctrl w => w &&& BitVec.ofNat 24 mask = BitVec.ofNat 24 pattern

/-- The `mask` and `match` columns of spec/opcode_table.json. -/
def row : Instr → Nat × Nat
  | .setpx _ _ _ => (0xFFFEFFFF00000000, 0x0100000000000000)
  | .clear => (0xFFFFFFFFFFFFFFFF, 0x0200000000000000)
  | .byteat _ => (0xFFFFFFFF00000000, 0x0300000000000000)
  | .flush => (0xFFFFFFFFFFFFFFFF, 0x0400000000000000)
  | .flushall => (0xFFFFFFFFFFFFFFFF, 0x0500000000000000)
  | .setColumnAddress _ _ => (0xFF0000, 0x210000)
  | .setPageAddress _ _ => (0xFF0000, 0x220000)

/-- Under the parameters of R6 the instruction's word agrees with its row of the opcode table. -/
def Statement (i : Instr) : Prop := Matches (encode Config.default i) (row i).1 (row i).2

/-- The fixed bits of a request word whose `Y` and `X` are operand bits. -/
theorem reqWord_fixed (op : Byte) (on : Bool) (y x : BitVec 16) {mask pattern : ReqWord}
    (hm : ∀ i < 64, mask.getLsbD i = (decide (32 ≤ i) && (decide (i ≠ 48) || mask.getLsbD 48)))
    (hp : pattern = reqWord op (on && mask.getLsbD 48) 0 0) :
    reqWord op on y x &&& mask = pattern := by
  apply BitVec.eq_of_getLsbD_eq
  intro i hi
  rw [BitVec.getLsbD_and, getLsbD_reqWord, hm i hi, hp, getLsbD_reqWord]
  by_cases h1 : i < 16
  · simp [h1, show ¬ 32 ≤ i by omega]
  · by_cases h2 : i < 32
    · simp [h1, h2]
    · by_cases h3 : i = 48
      · subst h3; simp
      · simp [h1, h2, h3, show 32 ≤ i by omega]

/-- The fixed bits of a controller command: its first byte. -/
theorem ctrlWord_fixed (op a b : Byte) : ctrlWord op a b &&& 0xFF0000 = ctrlWord op 0 0 := by
  apply BitVec.eq_of_getLsbD_eq
  intro i hi
  have hm : ∀ i < 24, (0xFF0000 : CtrlWord).getLsbD i = decide (16 ≤ i) := by decide
  rw [BitVec.getLsbD_and, getLsbD_ctrlWord, hm i hi, getLsbD_ctrlWord]
  by_cases h1 : i < 8
  · simp [h1, show ¬ 16 ≤ i by omega]
  · by_cases h2 : i < 16
    · simp [h1, h2]
    · simp [h1, h2, show 16 ≤ i by omega]

theorem setpx (x y : Int) (on : Bool) : Statement (.setpx x y on) := by
  simp only [Statement, Matches, encode, row]
  exact reqWord_fixed 0x01 on _ _ (by decide) (by cases on <;> decide)

theorem clear : Statement .clear := by
  simp only [Statement, Matches, encode, row]; decide

theorem byteat (idx : Nat) : Statement (.byteat idx) := by
  simp only [Statement, Matches, encode, row]
  exact reqWord_fixed 0x03 false _ _ (by decide) (by decide)

theorem flush : Statement .flush := by
  simp only [Statement, Matches, encode, row]; decide

theorem flushall : Statement .flushall := by
  simp only [Statement, Matches, encode, row]; decide

theorem setColumnAddress (sc ec : Nat) : Statement (.setColumnAddress sc ec) := by
  simp only [Statement, Matches, encode, row]
  exact (ctrlWord_fixed _ _ _).trans (by decide)

theorem setPageAddress (sp ep : Nat) : Statement (.setPageAddress sp ep) := by
  simp only [Statement, Matches, encode, row]
  exact (ctrlWord_fixed _ _ _).trans (by decide)

end Sys2Proof.Laws.TableRow
end

