-- ==== Sys2Proof/Tests/Slice0.lean ====
section
/-! SUPPORT. Sys2Proof/Tests/Slice0.lean: the smoke test of WellFormed, decode tests from words written out field by field,
one-step tests whose expected values are those of 95_test_vectors.md, and for each statement with hypotheses a witness
that meets them (`witness_<Obligation>`). -/

namespace Sys2Proof.Tests

open Sys2Proof.Machine

/-! One proof after another: with many kernel evaluations under way at once Lean reserves more memory than the check allows. -/
set_option Elab.async false

/-! ## Helpers -/

/-- The next state of an outcome, for comparison by `decide`. -/
def nextOf (o : Outcome) : Option State :=
  match o with
  | .next t => some t
  | .fault _ => none
  | .refused _ => none

theorem next_of_eq {o : Outcome} {t : State} (h : nextOf o = some t) : o = .next t := by
  cases o with
  | next u => simp only [nextOf, Option.some.injEq] at h; rw [h]
  | fault r => simp [nextOf] at h
  | refused r => simp [nextOf] at h

/-- The latches of the flush that an outcome's next state is in. -/
def latchesOf (o : Outcome) : Option Latches :=
  match nextOf o with
  | some { seq := .flushing q, .. } => some q
  | _ => none

/-- An idle FBCORE with the parameters of this hardware, the given FB and SNAP, and request words on its port. -/
def idle (fb snap : Memory) (requests : List ReqWord) : State :=
  { State.reset with fb := fb, snap := snap, requests := requests }

/-- FBCORE inside a flush, with the transport's answers to come. -/
def inFlush (fb : Memory) (q : Latches) (answers : List Answer) : State :=
  { State.reset with fb := fb, seq := .flushing q, answers := answers }

/-- The same under `BOUNDING`. -/
def bounding (s : State) : State := s.withPolicy .bounding

theorem inv_idle {s : State}
    (h : (s.cfg.wf && s.fb.wf && s.fb.within s.cfg.n && s.snap.wf && s.snap.within s.cfg.n) = true)
    (hc : s.command = none) (hs : s.seq = .idle) (hr : s.responses = []) : s.Inv := by
  simp only [Bool.and_eq_true] at h
  exact ⟨h.1.1.1.1, h.1.1.1.2, h.1.1.2, h.1.2, h.2, hc, by simp [State.seqOk, hs], by simp [hr]⟩

/-- A flush with some of its transactions answered, and other answers to come, keeps the invariant. -/
theorem inv_progress {fb : Memory} {q : Latches} (h : (inFlush fb q []).Inv) {k : Nat} (hk : k ≤ q.txlist.length)
    (answers : List Answer) : (inFlush fb { q with txpos := k } answers).Inv :=
  ⟨h.cfg, h.fbForm, h.fbSize, h.snapForm, h.snapSize, h.slot, ⟨h.phase.1, { h.phase.2 with cursor := hk }⟩, h.legal⟩

/-! ## WellFormed: an ill-formed term for each check -/

theorem test_wf_refuses_setpx : ∀ i ∈ ([.setpx (-32769) 0 true, .setpx 32768 0 true, .setpx 0 (-32769) true,
    .setpx 0 32768 true] : List Instr), i.wf = false := by decide

theorem test_wf_refuses_byteat : (Instr.byteat 4294967296).wf = false := by decide

theorem test_wf_refuses_window_values : ∀ i ∈ ([.setColumnAddress 256 0, .setColumnAddress 0 256,
    .setPageAddress 256 0, .setPageAddress 0 256] : List Instr), i.wf = false := by decide

theorem test_wf_admits_the_bounds : ∀ i ∈ ([.setpx (-32768) 32767 false, .setpx 32767 (-32768) true,
    .byteat 4294967295, .clear, .flush, .flushall, .setColumnAddress 255 255, .setPageAddress 255 255] : List Instr),
    i.wf = true := by decide

/-- R7, R6: one configuration for each condition, which breaks that condition. -/
theorem test_config_wf_refuses : ∀ c ∈ ([{ Config.default with width := 64 }, { Config.default with height := 60 },
    { Config.default with height := 0 }, { Config.default with height := 72 },
    { Config.default with width := 64, pageWidth := 64 }, { Config.default with opcSetPage := 0x21 },
    { Config.default with coordW := 8 }, { Config.default with idxW := 16 }] : List Config),
    c.wf = false := by decide

theorem test_config_wf_admits_the_heights : ∀ h ∈ [8, 16, 24, 32, 40, 48, 56, 64],
    ({ Config.default with height := h } : Config).wf = true := by decide

/-- The canonical form refuses a listed 0x00, a repeated index and indices out of order. -/
theorem test_memory_wf_refuses : ∀ m ∈ ([[(5, 0x00)], [(5, 0x01), (5, 0x02)], [(6, 0x01), (5, 0x02)]] : List Memory),
    m.wf = false := by decide

theorem test_illformed_config_is_refused :
    step { State.reset with cfg := { Config.default with height := 72 } } = .refused .illFormedConfiguration := rfl

/-! ## Decode: words written out field by field (R70, R79) -/

/-- `OP`, `Z1`, `ON`, `Z0`, `Y` = 23, `X` = 45. -/
theorem test_decode_setpx : decodeReq (0b00000001#8 ++ 0b0000000#7 ++ 0b1#1 ++ 0b0000000000000000#16 ++
    0b0000000000010111#16 ++ 0b0000000000101101#16) = .ok (.setpx 45 23 true) := by decide

/-- `Y` = 0 and `X` with bit 15 set: a negative coordinate (R73). -/
theorem test_decode_setpx_negative : decodeReq (0b00000001#8 ++ 0b0000000#7 ++ 0b0#1 ++ 0b0000000000000000#16 ++
    0b0000000000000000#16 ++ 0b1000000000000000#16) = .ok (.setpx (-32768) 0 false) := by decide

theorem test_decode_clear : decodeReq (0b00000010#8 ++ 0#56) = .ok .clear := by decide

/-- `IDX` = 301 = 256 + 32 + 8 + 4 + 1. -/
theorem test_decode_byteat : decodeReq (0b00000011#8 ++ 0#24 ++ 0b00000000000000000000000100101101#32) =
    .ok (.byteat 301) := by decide

theorem test_decode_flush : decodeReq (0b00000100#8 ++ 0#56) = .ok .flush := by decide

theorem test_decode_flushall : decodeReq (0b00000101#8 ++ 0#56) = .ok .flushall := by decide

theorem test_decode_setColumnAddress : decodeCtrl Config.default (0b00100001#8 ++ 0b00101101#8 ++ 0b00101110#8) =
    .ok (.setColumnAddress 45 46) := by decide

theorem test_decode_setPageAddress : decodeCtrl Config.default (0b00100010#8 ++ 0b00000010#8 ++ 0b00000111#8) =
    .ok (.setPageAddress 2 7) := by decide

/-- V-DEC: the illegal words. -/
theorem test_decode_illegal : ([0x0102000000000000, 0x0101000100000000, 0x0200000000000001, 0x0301000000000000,
    0x0000000000000000, 0x0600000000000000, 0xFF00000000000000] : List ReqWord).all
    (fun w => (decodeReq w).toOption.isNone) = true := by decide

theorem test_decodeTableWord : decodeTableWord 64 0x01010000FFFF0000 = some (.setpx 0 (-1) true) ∧
    decodeTableWord 24 0x22070F = some (.setPageAddress 7 15) ∧ decodeTableWord 64 0x0102000000000000 = none := by
  decide

/-- R81, R82: comments, blank lines, case, hexadecimal, pseudo-instructions. -/
theorem test_assemble : assemble "setpx 45, 0x17,1 ; x\n\n  PXON -1,0\nFLUSH".toList =
    .ok [0x010100000017002D, 0x010100000000FFFF, 0x0400000000000000] := by decide +kernel

theorem test_assemble_out_of_range : assemble "PXON 32768, 0".toList = .error .outOfRange := by decide +kernel

/-! ## One step each, expected values from 95_test_vectors.md -/

/-- SRC-1. -/
theorem test_setpx_sets_one_bit : (nextOf (step (idle [] [] [0x010100000017002D]))).map
    (fun t => (t.fb, t.response, t.requests)) = some ([(301, 0x80)], some 0x0000, []) := by decide

/-- V-PX: clearing bit 0 of FB[301] = 0x7F; SNAP untouched. -/
theorem test_setpx_clears_one_bit : (nextOf (exec (.setpx 45 16 false) (idle [(301, 0x7F)] [(5, 0xAA)] []))).map
    (fun t => (t.fb, t.snap)) = some ([(301, 0x7E)], [(5, 0xAA)]) := by decide

/-- V-CLR. -/
theorem test_clear : (nextOf (step (idle [(0, 0x01), (1023, 0x80)] [(7, 0xFF)] [0x0200000000000000]))).map
    (fun t => (t.fb, t.snap, t.response, t.history)) = some ([], [(7, 0xFF)], some 0x0000, []) := by decide

/-- V-BA. -/
theorem test_byteat : (nextOf (step (idle [(301, 0x80)] [(5, 0xAA)] [0x030000000000012D]))).map (·.response) =
    some (some 0x0080) := by decide

/-- V-BA: BYTEAT 1024. -/
theorem test_byteat_out_of_range : (nextOf (step (idle [(301, 0x80)] [] [0x0300000000000400]))).map
    (fun t => (t.response, t.fb, t.goneWrong)) = some (some 0x0200, [(301, 0x80)], true) := by decide

/-- FL6: the corner columns 10 and 20, 33 data bytes over pages 0 to 2. -/
theorem test_flush_corners : (latchesOf (exec .flush (idle [(10, 0x01), (178, 0x02), (276, 0x02)] [] []))).map
    (fun q => (q.win, [q.first, q.lastx, q.txlist.length], [q.txlist[6]?, q.txlist[38]?])) =
    some ({ sc := 10, ec := 20, sp := 0, ep := 2 }, [10, 277, 39], [some ⟨.data, 0x01⟩, some ⟨.data, 0x02⟩]) := by
  decide +kernel

/-- FL5b: 182 data bytes, 0x01 at data positions 90 and 91. -/
theorem test_flush_bounding : (latchesOf (exec .flush (bounding (idle [(100, 0x01), (138, 0x01)] [] [])))).map
    (fun q => (q.win, q.txlist.length, (q.txlist.drop 95).take 4)) =
    some ({ sc := 10, ec := 100, sp := 0, ep := 1 }, 188,
      [⟨.data, 0x00⟩, ⟨.data, 0x01⟩, ⟨.data, 0x01⟩, ⟨.data, 0x00⟩]) := by decide +kernel

/-- SRC-6, P-1. -/
theorem test_flushall : (latchesOf (step (idle [(1023, 0x80)] [] [0x0500000000000000]))).map
    (fun q => (q.txlist.length, q.txlist.take 7, q.txlist[1029]?)) =
    some (1030, [⟨.cmd, 0x21⟩, ⟨.cmd, 0x00⟩, ⟨.cmd, 0x7F⟩, ⟨.cmd, 0x22⟩, ⟨.cmd, 0x00⟩, ⟨.cmd, 0x07⟩,
      ⟨.data, 0x00⟩], some ⟨.data, 0x80⟩) := by decide +kernel

/-- V-WIN: the first three transactions of window (100, 10, 0, 1), emitted unchanged. -/
theorem test_setColumnAddress : (nextOf (step (State.reset.withFetchWord 24 0x21640A))).map (·.seq) =
    some (.commanding [⟨.cmd, 0x21⟩, ⟨.cmd, 0x64⟩, ⟨.cmd, 0x0A⟩]) := by decide

/-- V-WIN: the last three transactions of window (100, 10, 0, 1). -/
theorem test_setPageAddress : (nextOf (step (State.reset.withFetchWord 24 0x220001))).map (·.seq) =
    some (.commanding [⟨.cmd, 0x22⟩, ⟨.cmd, 0x00⟩, ⟨.cmd, 0x01⟩]) := by decide

/-- V-DEC, P-5: an illegal word. -/
theorem test_illegal_word : (nextOf (step (State.reset.withFetchWord 64 0x0600000000000000))).map
    (fun t => (t.response, t.fb, t.history, t.goneWrong)) = some (some 0x0300, [], [], true) := by decide

/-! ## The states of the witnesses -/

/-- SRC-1 before its FLUSH. -/
def drawn : State := idle [(301, 0x80)] [] [0x0400000000000000]

/-- SRC-1: what its FLUSH latches and lists. -/
def q301 : Latches where
  txlist := [⟨.cmd, 0x21⟩, ⟨.cmd, 0x2D⟩, ⟨.cmd, 0x2D⟩, ⟨.cmd, 0x22⟩, ⟨.cmd, 0x02⟩, ⟨.cmd, 0x02⟩, ⟨.data, 0x80⟩]
  txpos := 0
  first := 301
  lastx := 302
  win := { sc := 45, ec := 45, sp := 2, ep := 2 }

/-- SRC-1: the FLUSH request opens exactly this flush. -/
theorem drawn_opens_q301 : nextOf (step drawn) = some (inFlush [(301, 0x80)] q301 []) := by decide +kernel

/-- FL5: the inverted window and no data byte. -/
def qInverted : Latches where
  txlist := [⟨.cmd, 0x21⟩, ⟨.cmd, 0x64⟩, ⟨.cmd, 0x0A⟩, ⟨.cmd, 0x22⟩, ⟨.cmd, 0x00⟩, ⟨.cmd, 0x01⟩]
  txpos := 0
  first := 100
  lastx := 139
  win := { sc := 100, ec := 10, sp := 0, ep := 1 }

/-- FL5 before its FLUSH. -/
def drawnInverted : State := idle [(100, 0x01), (138, 0x01)] [] [0x0400000000000000]

/-- FL5: the FLUSH request opens exactly this flush. -/
theorem drawnInverted_opens_qInverted : nextOf (step drawnInverted) = some (inFlush [(100, 0x01), (138, 0x01)] qInverted []) := by
  decide +kernel

/-- P-3 before its FLUSH: differences in two pages, the corner columns in order. -/
def drawnPages : State := idle [(10, 0x01), (100, 0x01), (148, 0x02)] [] []

/-- FL2 before its FLUSH: two differences in one page. -/
def drawnPage : State := idle [(643, 0x03), (649, 0x80)] [] []

theorem inv_drawn : drawn.Inv := inv_idle (by decide) rfl rfl rfl

theorem inv_q301 : (inFlush [(301, 0x80)] q301 []).Inv := by
  have h : (idle [(301, 0x80)] [] []).Inv := inv_idle (by decide) rfl rfl rfl
  exact h.exec_request (i := .flush) rfl rfl rfl (next_of_eq (by decide +kernel))

theorem inv_qInverted : (inFlush [(100, 0x01), (138, 0x01)] qInverted []).Inv := by
  have h : (idle [(100, 0x01), (138, 0x01)] [] []).Inv := inv_idle (by decide) rfl rfl rfl
  exact h.exec_request (i := .flush) rfl rfl rfl (next_of_eq (by decide +kernel))

theorem single301 (i : Nat) : drawn.differsAt i ↔ i = 301 := by
  show i < 1024 ∧ Memory.read [(301, 0x80)] i ≠ Memory.read [] i ↔ i = 301
  rw [Memory.read_cons, Memory.read_nil]
  by_cases h : 301 = i
  · subst h; simp
  · simp [h, Ne.symm h]

/-! ## Witnesses: the hypotheses of the statements can be met -/

/-- Reset asserted inside a flush (R231). -/
theorem witness_ResetStepRestoresTheResetValues :
    let s := { inFlush [(301, 0x80)] q301 [.ok] with resetLine := [true, false] }
    s.cfg.wf = true ∧ s.resetLine = true :: [false] := by decide

theorem witness_ResetMeetsTheInvariant : ({ Config.default with height := 8, windowPolicy := .bounding } : Config).wf = true := by
  decide

theorem witness_StepKeepsTheInvariant : ∃ s t : State, s.Inv ∧ step s = .next t ∧ t.history ≠ s.history :=
  ⟨_, _, inv_progress inv_q301 (k := 6) (by decide) [.ok], next_of_eq (o := step _) rfl, by decide⟩

theorem witness_StepAlwaysAnswersANextState : drawn.Inv ∧ (inFlush [(301, 0x80)] q301 []).Inv := ⟨inv_drawn, inv_q301⟩

theorem witness_StepKeepsTheConfiguration : ∃ t, step drawn = .next t := ⟨_, next_of_eq drawn_opens_q301⟩

theorem witness_AStepIssuesAtMostTheTransactionAtTheCursor :
    ∃ s t : State, s.Inv ∧ step s = .next t ∧ t.history ≠ s.history := witness_StepKeepsTheInvariant

/-- A Commit and a reset, each of which changes SNAP. -/
theorem witness_OnlyCommitAndResetWriteSnap :
    (∃ t, step (inFlush [(301, 0x80)] { q301 with txpos := 7 } []) = .next t ∧ t.snap ≠ []) ∧
    (∃ t, step { idle [] [(5, 0x01)] [] with resetLine := [true] } = .next t ∧ t.snap ≠ [(5, 0x01)]) :=
  ⟨⟨_, next_of_eq rfl, by decide⟩, ⟨_, next_of_eq rfl, by decide⟩⟩

theorem witness_BuffersAreStableDuringAFlush :
    let s := inFlush [(301, 0x80)] { q301 with txpos := 6 } [.fail]
    s.seq = .flushing { q301 with txpos := 6 } ∧ 6 < q301.txlist.length ∧ s.noReset ∧ ∃ t, step s = .next t :=
  ⟨rfl, by decide, by unfold State.noReset; decide, _, next_of_eq rfl⟩

/-- A response with DATA other than 0x00, and one of an error. -/
theorem witness_AStepGivesAtMostOneLegalResponse :
    (∃ t, step (idle [(301, 0x80)] [] [0x030000000000012D]) = .next t ∧ t.responses = [0x0080]) ∧
    (∃ t, step (inFlush [(301, 0x80)] q301 [.fail]) = .next t ∧ t.responses = [0x0100]) :=
  ⟨⟨_, next_of_eq rfl, by decide⟩, ⟨_, next_of_eq rfl, by decide⟩⟩

/-- A CLEAR that is held at a Transact step, at an abort and at a Commit. -/
theorem witness_RequestsAreHeldWhileFlushing : ∀ p ∈ ([(0, [.ok]), (0, [.fail]), (7, [])] : List (Nat × List Answer)),
    let s := { inFlush [(301, 0x80)] { q301 with txpos := p.1 } p.2 with requests := [0x0200000000000000] }
    s.seq = .flushing { q301 with txpos := p.1 } ∧ s.resetLine.head? ≠ some true ∧
      (nextOf (step s)).map (·.requests) = some [0x0200000000000000] := by decide

/-- The fault set before a reset; and the step that sets it, of a state that meets the invariant. -/
theorem witness_WindowContractIsStickyAndOnlyForInvertedCorners :
    (∃ t, step { State.reset with windowContract := true, resetLine := [true] } = .next t) ∧
    (∃ s t : State, s.Inv ∧ step s = .next t ∧ s.windowContract = false ∧ t.windowContract = true) :=
  ⟨⟨_, next_of_eq rfl⟩,
   ⟨_, _, inv_progress inv_qInverted (k := 2) (by decide) [.ok], next_of_eq (o := step _) rfl, by decide, by decide⟩⟩

/-- Each of the three ways. -/
theorem witness_ARunGoesWrongOnlyInTheThreeListedWays :
    (∃ s t : State, s.Inv ∧ step s = .next t ∧ s.goneWrong = false ∧ t.goneWrong = true ∧
      s.requests = [0x0600000000000000]) ∧
    (∃ s t : State, s.Inv ∧ step s = .next t ∧ s.goneWrong = false ∧ t.goneWrong = true ∧
      s.requests = [0x0300000000000400]) ∧
    (∃ s t : State, s.Inv ∧ step s = .next t ∧ s.goneWrong = false ∧ t.goneWrong = true ∧ s.requests = []) :=
  ⟨⟨idle [] [] [0x0600000000000000], _, inv_idle (by decide) rfl rfl rfl, next_of_eq (o := step _) rfl, by decide,
      by decide, rfl⟩,
   ⟨idle [] [] [0x0300000000000400], _, inv_idle (by decide) rfl rfl rfl, next_of_eq (o := step _) rfl, by decide,
      by decide, rfl⟩,
   ⟨_, _, inv_progress inv_qInverted (k := 2) (by decide) [.ok], next_of_eq (o := step _) rfl, by decide, by decide,
      rfl⟩⟩

theorem witness_DecodeOfEncodeIsTheInstruction : Config.default.wf = true ∧ (Instr.setpx (-32768) 32767 true).wf = true := by
  decide

/-- A negative column and a positive one; the greatest index. -/
theorem witness_DecodedOperandsAreTheFieldValues :
    decodeReq 0x0101000000008000 = .ok (.setpx (-32768) 0 true) ∧
    decodeReq 0x010000007FFF7FFF = .ok (.setpx 32767 32767 false) ∧
    decodeReq 0x03000000FFFFFFFF = .ok (.byteat 4294967295) := by decide

theorem witness_EncodeOfDecodeIsTheWord :
    decode Config.default (.req 0x0101000000008000) = .ok (.setpx (-32768) 0 true) ∧
    decode Config.default (.req 0x03000000FFFFFFFF) = .ok (.byteat 4294967295) ∧
    decode Config.default (.ctrl 0x21FF00) = .ok (.setColumnAddress 255 0) := by decide

theorem witness_AssembledWordsAreLegalRequests : assemble "FLUSH".toList = .ok [0x0400000000000000] := by
  decide +kernel

theorem witness_StepRunsThePresentedRequest :
    let s := drawn
    s.cfg.wf = true ∧ s.noReset ∧ s.seq = .idle ∧ s.command = none ∧ s.requests = 0x0400000000000000 :: [] ∧
      decodeReq 0x0400000000000000 = .ok .flush := by unfold State.noReset; decide

theorem witness_IllegalWordIsAnsweredAndChangesNothing :
    let s := idle [] [] [0x0102000000000000, 0x0400000000000000]
    s.cfg.wf = true ∧ s.noReset ∧ s.seq = .idle ∧ s.command = none ∧
      s.requests = 0x0102000000000000 :: [0x0400000000000000] ∧
      decodeReq 0x0102000000000000 = .error (.mustBeZero 0x01) := by unfold State.noReset; decide

theorem witness_IdleWaitsForARequest :
    let s := State.reset
    s.cfg.wf = true ∧ s.noReset ∧ s.seq = .idle ∧ s.command = none ∧ s.requests = [] := by
  unfold State.noReset; decide

theorem witness_StepRunsTheLoneCommand :
    let s := { State.reset with command := some 0x21FF00 }
    s.cfg.wf = true ∧ s.noReset ∧ s.seq = .idle ∧ s.command = some 0x21FF00 ∧
      decodeCtrl s.cfg 0x21FF00 = .ok (.setColumnAddress 255 0) := by unfold State.noReset; decide

/-- The last pixel and the first. -/
theorem witness_SetpxWritesOneBitOfFb :
    drawn.cfg.wf = true ∧ drawn.fb.wf = true ∧
      ((0 : Int) ≤ 127 ∧ (127 : Int) < drawn.cfg.width ∧ (0 : Int) ≤ 63 ∧ (63 : Int) < drawn.cfg.height) ∧
      ((0 : Int) ≤ 0 ∧ (0 : Int) < drawn.cfg.width ∧ (0 : Int) ≤ 0 ∧ (0 : Int) < drawn.cfg.height) := by decide

/-- One past each edge. -/
theorem witness_SetpxOutOfBoundsChangesNothing : ∀ p ∈ ([(-1, 0), (0, -1), (128, 0), (0, 64)] : List (Int × Int)),
    ¬ (0 ≤ p.1 ∧ p.1 < drawn.cfg.width ∧ 0 ≤ p.2 ∧ p.2 < drawn.cfg.height) := by decide

/-- Setting a set bit, and clearing a clear one. -/
theorem witness_SetpxOfThePresentValueLeavesFb :
    drawn.cfg.wf = true ∧ drawn.fb.wf = true ∧ inb drawn.cfg 45 23 = true ∧
      (drawn.fb.read (45 + 23 / 8 * drawn.cfg.width)).getLsbD (23 % 8) = true ∧
      (drawn.fb.read (45 + 16 / 8 * drawn.cfg.width)).getLsbD (16 % 8) = false := by decide

/-- Two pixels of one byte, and one of them out of bounds. -/
theorem witness_SetpxOnDistinctPixelsCommute : drawn.cfg.wf = true ∧ drawn.fb.wf = true ∧
    ((5 : Int), (8 : Int)) ≠ (5, 9) ∧ ((-1 : Int), (8 : Int)) ≠ (5, 9) := by decide

theorem witness_EveryBitIsExactlyOnePixel : Config.default.wf = true ∧ 1023 < Config.default.n ∧ 7 < 8 ∧
    inb Config.default 127 63 = true ∧ pixelIndex Config.default 127 63 = 1023 ∧ pixelBit 63 = 7 := by decide

/-- Index `N - 1` and index `N`. -/
theorem witness_ByteatReadsFbOrAnswersOutOfRange : drawn.seq = .idle ∧ 1023 < drawn.cfg.n ∧ drawn.cfg.n ≤ 1024 := by
  decide

theorem witness_PixelReadsBackThroughTheRequestPort :
    let s := { idle [] [] [0x01010000003F007F, 0x03000000000003FF, 0x0400000000000000] with resetLine := [false, false] }
    s.Inv ∧ s.seq = .idle ∧ (∀ r ∈ s.resetLine, r = false) ∧ inb s.cfg 127 63 = true ∧
      s.requests = 0x01010000003F007F :: 0x03000000000003FF :: [0x0400000000000000] ∧
      decodeReq 0x01010000003F007F = .ok (.setpx 127 63 true) ∧
      decodeReq 0x03000000000003FF =
        .ok (.byteat ((127 : Int).toNat + (63 : Int).toNat / 8 * s.cfg.width)) :=
  ⟨inv_idle (by decide) rfl rfl rfl, by decide⟩

/-- FL8 and FL9. -/
theorem witness_FlushWithoutDifferenceIssuesNothing : ∀ b : Bool,
    let s := { idle [(5, 0x01)] [(5, 0x01)] [] with cfg := { Config.default with nodiffClears := b } }
    ∀ i < s.cfg.n, s.fb.read i = s.snap.read i := fun _ _ _ => rfl

theorem witness_FlushWindowUnderCorners :
    drawnPages.cfg.wf = true ∧ drawnPages.cfg.windowPolicy = .corners ∧ drawnPages.differsAt 100 := by
  unfold State.differsAt; decide

theorem witness_FlushWindowUnderBounding :
    (bounding drawnPages).cfg.wf = true ∧ (bounding drawnPages).cfg.windowPolicy = .bounding ∧
      (bounding drawnPages).differsAt 100 := by unfold State.differsAt; decide

/-- Under each policy. -/
theorem witness_FlushLatchesTheFirstAndLastDifference :
    (drawnPages.cfg.wf = true ∧ drawnPages.differsAt 10) ∧
      ((bounding drawnPages).cfg.wf = true ∧ (bounding drawnPages).differsAt 10) := by unfold State.differsAt; decide

theorem witness_FlushPagesAreTheBoundsOfTheDifferences :
    (drawnPages.cfg.wf = true ∧ drawnPages.differsAt 10) ∧
      ((bounding drawnPages).cfg.wf = true ∧ (bounding drawnPages).differsAt 10) :=
  witness_FlushLatchesTheFirstAndLastDifference

theorem witness_FlushTransactionListIsWindowThenStream :
    (drawnPages.cfg.wf = true ∧ drawnPages.differsAt 10) ∧
      ((bounding drawnPages).cfg.wf = true ∧ (bounding drawnPages).differsAt 10) :=
  witness_FlushLatchesTheFirstAndLastDifference

/-- Index 148 is streamed, index 100 (column 100) is not (P-3). -/
theorem witness_CornersOmitsDifferencesOutsideTheCornerColumns :
    drawnPages.cfg.wf = true ∧ drawnPages.cfg.windowPolicy = .corners ∧ drawnPages.differsAt 148 ∧
      drawnPages.differsAt 100 ∧ (latchesOf (exec .flush drawnPages)).map (·.txlist.length) = some 28 :=
  ⟨by decide, by decide, by unfold State.differsAt; decide, by unfold State.differsAt; decide, by decide +kernel⟩

theorem witness_FlushallListsTheWholeBuffer : ({ Config.default with height := 32 } : Config).wf = true := by decide

theorem differs_drawnPage {i : Nat} (h : drawnPage.differsAt i) : i = 643 ∨ i = 649 := by
  have h' : Memory.read [(643, 0x03), (649, 0x80)] i ≠ Memory.read [] i := h.2
  rw [Memory.read_cons, Memory.read_cons, Memory.read_nil] at h'
  by_cases h1 : 643 = i
  · exact Or.inl h1.symm
  · by_cases h2 : 649 = i
    · exact Or.inr h2.symm
    · simp [h1, h2] at h'

theorem witness_PoliciesAgreeWithinOnePage :
    drawnPage.cfg.wf = true ∧ drawnPage.differsAt 643 ∧
      ∀ i j, drawnPage.differsAt i → drawnPage.differsAt j → i / drawnPage.cfg.pageWidth = j / drawnPage.cfg.pageWidth := by
  refine ⟨by decide, by unfold State.differsAt; decide, fun i j hi hj => ?_⟩
  rcases differs_drawnPage hi with rfl | rfl <;> rcases differs_drawnPage hj with rfl | rfl <;> decide

/-- The columns in order, in a flush of several pages. -/
theorem witness_CornersWithOrderedColumnsStreamsTheWindow :
    drawnPages.cfg.wf = true ∧ drawnPages.cfg.windowPolicy = .corners ∧ drawnPages.differsAt 10 ∧
      (latchesOf (exec .flush drawnPages)).map (·.win) = some { sc := 10, ec := 20, sp := 0, ep := 1 } :=
  ⟨by decide, by decide, by unfold State.differsAt; decide, by decide +kernel⟩

/-- The columns inverted: the window of `qInverted`. -/
theorem witness_CornersWithInvertedColumnsStreamsNothing :
    drawnInverted.cfg.wf = true ∧ drawnInverted.cfg.windowPolicy = .corners ∧ drawnInverted.differsAt 100 ∧
      qInverted.win.ec < qInverted.win.sc ∧
      (nextOf (exec .flush drawnInverted)).map (·.seq) = some (.flushing qInverted) :=
  ⟨by decide, by decide, by unfold State.differsAt; decide, by decide, by decide +kernel⟩

/-- In order, and a streamed byte that does not differ (index 11). -/
theorem witness_BoundingStreamsEveryDifference :
    (bounding drawnPages).cfg.wf = true ∧ (bounding drawnPages).cfg.windowPolicy = .bounding ∧
      (bounding drawnPages).differsAt 148 ∧ ¬ (bounding drawnPages).differsAt 11 := by unfold State.differsAt; decide

theorem witness_SingleDifferenceFlush : drawn.cfg.wf = true ∧ ∀ i, drawn.differsAt i ↔ i = 301 :=
  ⟨by decide, single301⟩

/-- The third transaction, where the window is checked. -/
theorem witness_TransactAnsweredOkAdvancesTheCursor :
    let q := { qInverted with txpos := 2 }
    let s := inFlush [(100, 0x01), (138, 0x01)] q [.ok, .fail]
    s.cfg.wf = true ∧ s.noReset ∧ s.seq = .flushing q ∧ q.txlist[q.txpos]? = some ⟨.cmd, 0x0A⟩ ∧
      s.answers = .ok :: [.fail] := by unfold State.noReset; decide

/-- The last transaction; and the third of an inverted window, where WindowContract is recorded beside BUS_ERROR (R207). -/
theorem witness_TransactAnsweredFailAborts :
    (let q := { q301 with txpos := 6 }
     let s := inFlush [(301, 0x80)] q [.fail]
     s.cfg.wf = true ∧ s.noReset ∧ s.seq = .flushing q ∧ q.txlist[q.txpos]? = some ⟨.data, 0x80⟩ ∧
       s.answers = .fail :: []) ∧
    (let q := { qInverted with txpos := 2 }
     let s := inFlush [(100, 0x01), (138, 0x01)] q [.fail]
     s.cfg.wf = true ∧ s.noReset ∧ s.seq = .flushing q ∧ q.txlist[q.txpos]? = some ⟨.cmd, 0x0A⟩ ∧
       s.answers = .fail :: [] ∧
       (nextOf (step s)).map (fun t => (t.windowContract, t.response)) = some (true, some 0x0100)) := by
  unfold State.noReset; decide

theorem witness_UnansweredTransactionWaits :
    let s := inFlush [(301, 0x80)] q301 []
    s.cfg.wf = true ∧ s.noReset ∧ s.seq = .flushing q301 ∧ q301.txpos < q301.txlist.length ∧ s.answers = [] := by
  unfold State.noReset; decide

theorem witness_CommitCopiesFbToSnapAndClearsFb :
    let q := { q301 with txpos := 7 }
    let s := inFlush [(301, 0x80)] q []
    s.cfg.wf = true ∧ s.noReset ∧ s.seq = .flushing q ∧ q.txpos = q.txlist.length := by
  unfold State.noReset; decide

/-- A frame that is not all 0x00, and one that is. -/
theorem witness_FlushRightAfterACommit :
    let q := { q301 with txpos := 7 }
    let s := inFlush [(301, 0x80)] q []
    let z := inFlush [] q []
    (s.cfg.wf = true ∧ s.noReset ∧ s.seq = .flushing q ∧ q.txpos = q.txlist.length ∧ (∃ t, step s = .next t) ∧
      ∃ i < s.cfg.n, s.fb.read i ≠ 0x00) ∧
    (z.cfg.wf = true ∧ z.noReset ∧ z.seq = .flushing q ∧ (∃ t, step z = .next t) ∧ ∀ i < z.cfg.n, z.fb.read i = 0x00) :=
  ⟨⟨by decide, by unfold State.noReset; decide, rfl, by decide, ⟨_, next_of_eq rfl⟩, 301, by decide⟩,
   ⟨by decide, by unfold State.noReset; decide, rfl, ⟨_, next_of_eq rfl⟩, fun _ _ => rfl⟩⟩

theorem witness_FlushCompletesWhenEveryTransactionIsAnsweredOk :
    let s := inFlush [(301, 0x80)] q301 (List.replicate 7 .ok ++ [.fail])
    s.cfg.wf = true ∧ (∀ r ∈ s.resetLine, r = false) ∧ s.seq = .flushing q301 ∧ q301.txpos = 0 ∧
      s.answers = List.replicate q301.txlist.length .ok ++ [.fail] := by decide

/-- Failure at the last transaction, and at the first. -/
theorem witness_FlushAbortsAtTheFirstFailure : ∀ p ∈ ([(0, ⟨.cmd, 0x21⟩), (6, ⟨.data, 0x80⟩)] : List (Nat × Tx)),
    let s := inFlush [(301, 0x80)] q301 (List.replicate p.1 .ok ++ .fail :: [.ok])
    s.cfg.wf = true ∧ (∀ r ∈ s.resetLine, r = false) ∧ s.seq = .flushing q301 ∧ q301.txpos = 0 ∧
      q301.txlist[p.1]? = some p.2 := by decide

/-- Transaction 3 fails (P-5). -/
theorem witness_RetryAfterABusFailureFindsTheSameFlush :
    let s := { drawn with answers := List.replicate 3 .ok ++ .fail :: [] }
    s.cfg.wf = true ∧ (∀ r ∈ s.resetLine, r = false) ∧ s.differsAt 301 ∧ 3 < q301.txlist.length ∧
      (nextOf (exec .flush s)).map (·.seq) = some (.flushing q301) ∧
      (latchesOf (exec .flushall s)).map (fun p => decide (3 < p.txlist.length)) = some true :=
  ⟨by decide, by decide, by unfold State.differsAt; decide, by decide, by decide +kernel, by decide +kernel⟩

theorem witness_FlushallRoundTrip :
    let s := { idle [(301, 0x80)] [] [0x0500000000000000] with answers := List.replicate 1030 .ok }
    s.Inv ∧ s.seq = .idle ∧ (∀ r ∈ s.resetLine, r = false) ∧ s.requests = 0x0500000000000000 :: [] ∧
      s.answers = List.replicate (6 + s.cfg.n) .ok ++ [] :=
  ⟨inv_idle (by decide) rfl rfl rfl, rfl, by decide, rfl, (List.append_nil _).symm⟩

/-- Each of the three phases. -/
theorem witness_ControllerCommandsAreThreeCommandTransactions :
    (inFlush [(301, 0x80)] q301 []).seq = .flushing q301 ∧
    ({ State.reset with seq := .commanding [⟨.cmd, 0x21⟩] } : State).seq = .commanding [⟨.cmd, 0x21⟩] ∧
    State.reset.seq = .idle := by decide

theorem witness_LoneControllerCommandIssuesItsThreeBytes :
    let s := { State.reset with command := some 0x22000A, answers := [.ok, .ok, .ok, .fail], resetLine := [false, false] }
    s.cfg.wf = true ∧ (∀ r ∈ s.resetLine, r = false) ∧ s.seq = .idle ∧ s.command = some 0x22000A ∧
      decodeCtrl s.cfg 0x22000A = .ok (.setPageAddress 0 10) ∧ s.answers = .ok :: .ok :: .ok :: [.fail] := by decide

/-- A run that is gone wrong; then each of the three ways. -/
theorem witness_EachListedWayMakesARunGoWrong :
    (∃ t, step { State.reset with windowContract := true } = .next t ∧ t.goneWrong = true) ∧
    (let s := idle [] [] [0x0600000000000000]
     s.noReset ∧ s.seq = .idle ∧ s.command = none ∧ decodeReq 0x0600000000000000 = .error (.illegalOpcode 0x06) ∧
       s.goneWrong = false ∧ (nextOf (step s)).map (·.goneWrong) = some true) ∧
    (let s := idle [] [] [0x0300000000000400]
     s.noReset ∧ s.seq = .idle ∧ s.command = none ∧ decodeReq 0x0300000000000400 = .ok (.byteat 1024) ∧
       s.cfg.n ≤ 1024 ∧ s.goneWrong = false ∧ (nextOf (step s)).map (·.goneWrong) = some true) ∧
    (let q := { qInverted with txpos := 2 }
     let s := inFlush [(100, 0x01), (138, 0x01)] q [.ok]
     s.noReset ∧ s.seq = .flushing q ∧ q.txlist[q.txpos]? = some ⟨.cmd, 0x0A⟩ ∧ s.answers ≠ [] ∧
       q.win.ec < q.win.sc ∧ s.goneWrong = false ∧ (nextOf (step s)).map (·.goneWrong) = some true) :=
  ⟨⟨_, next_of_eq rfl, by decide⟩, by unfold State.noReset; decide, by unfold State.noReset; decide,
   by unfold State.noReset; decide⟩

/-- A run that is refused, one that goes on with a legal word, and one in which the illegal word is still held. -/
theorem witness_ARunThatPresentsAnIllegalWordIsRefused :
    run 3 (idle [] [] [0x0600000000000000]) = .refused (.illegalRequest 0x0600000000000000) ∧
    (nextOf (run 1 (idle [(0, 0x01)] [] [0x0200000000000000]))).map (·.fb) = some [] ∧
    (nextOf (run 1 { inFlush [(301, 0x80)] q301 [.ok] with requests := [0x0600000000000000] })).map (·.requests) =
      some [0x0600000000000000] := ⟨rfl, by decide, by decide⟩

/-- The bounds of a coordinate and of an index, and one past each; a hexadecimal number; a mnemonic in small letters; both
values of `on`, another one, and a minus sign before an index. -/
theorem witness_AssemblerRefusesOperandsOutOfRange :
    ["-32768", "0x7fff"].map (asmInt ·.toList) = [some (-32768), some 32767] ∧
    ["4294967295", "4294967296"].map (asmNat ·.toList) = [some 4294967295, some 4294967296] ∧
    "setpx".toList.map Char.toUpper = ['S', 'E', 'T', 'P', 'X'] ∧
    ["setpx -32768,32767,  1", "SETPX 0, 0,0", "BYTEAT 4294967295"].map (assemble ·.toList) =
      [.ok [0x010100007FFF8000], .ok [0x0100000000000000], .ok [0x03000000FFFFFFFF]] ∧
    ["PXOFF 0, -32769", "BYTEAT 4294967296"].map (assemble ·.toList) = [.error .outOfRange, .error .outOfRange] ∧
    ["SETPX 0, 0, 2", "BYTEAT -1"].map (assemble ·.toList) = [.error .badOperands, .error .badOperands] := by
  decide +kernel

end Sys2Proof.Tests
end

section
/-! PROOFS. The frame of the configuration (R6, R23): each kind of step keeps it, and so every step does. -/

namespace Sys2Proof.Machine

section
variable {s t : State}

@[simp] theorem flushStep_cfg (s : State) (q : Latches) : (s.flushStep q).cfg = s.cfg := by
  rcases flushStep_cases s q with ⟨-, -, he⟩ | ⟨tx, later, -, -, he⟩ | ⟨tx, later, -, -, he⟩ | ⟨-, he⟩
  · rw [he]
  · rw [he]
  · rw [he]
  · rw [he, State.commit_cfg]

@[simp] theorem commandStep_cfg (s : State) (p : List Tx) : (s.commandStep p).cfg = s.cfg := by
  obtain ⟨q, l, h, he⟩ := commandStep_frame s p
  rw [he]

theorem exec_cfg {i : Instr} (h : exec i s = .next t) : t.cfg = s.cfg := (exec_frame h).1

theorem runCommand_cfg {w : CtrlWord} (h : s.runCommand w = .next t) : t.cfg = s.cfg := by
  obtain ⟨i, -, he⟩ := runCommand_next h
  exact (exec_cfg he).trans s.takeCommand_cfg

/-- An illegal word keeps the configuration by the frame of `raise`, a legal one by the frame of its instruction. -/
theorem accept_cfg {w : ReqWord} {later : List ReqWord} (h : s.accept w later = .next t) : t.cfg = s.cfg := by
  rcases accept_next h with ⟨e, -, rfl⟩ | ⟨i, -, -, he⟩
  · simp
  · exact (exec_cfg he).trans (s.takeRequest_cfg later)

theorem advance_cfg (h : s.advance = .next t) : t.cfg = s.cfg := by
  rcases advance_next h with ⟨q, -, rfl⟩ | ⟨p, -, rfl⟩ | ⟨-, w, -, hw⟩ | ⟨-, -, w, later, -, ha⟩ | ⟨-, -, -, rfl⟩
  · exact flushStep_cfg s q
  · exact commandStep_cfg s p
  · exact runCommand_cfg hw
  · exact accept_cfg ha
  · rfl

theorem step_cfg (h : step s = .next t) : t.cfg = s.cfg := by
  obtain ⟨-, ⟨later, -, rfl⟩ | ⟨-, ha⟩⟩ := step_next h
  · simp
  · exact (advance_cfg ha).trans s.sampled_cfg

end

/-- Settles O6: a step is a reset or a step of FBCORE, and each kind of either keeps the configuration. -/
theorem stepKeepsTheConfiguration : Obligations.StepKeepsTheConfiguration := fun _ _ => step_cfg

end Sys2Proof.Machine
end

section
/-! PROOFS. Reset (R34, R35), and the step that each phase calls for (R30, R31, R62). -/

namespace Sys2Proof.Machine

section
variable {s : State}

/-- The reset line is asserted at the next step exactly when that is its first sample. -/
theorem not_noReset_iff : ¬ s.noReset ↔ ∃ later, s.resetLine = true :: later := by
  rw [State.noReset, not_not, List.head?_eq_some_iff]

/-- R31: in FLUSHING a step that finds no reset is the step of the flush. -/
theorem step_flushing (hc : s.cfg.wf = true) (hr : s.noReset) {q : Latches} (hs : s.seq = .flushing q) :
    step s = .next (s.sampled.flushStep q) :=
  (step_noReset hc hr).trans (advance_flushing hs)

/-- R30: no step of a flush takes a request from the port. -/
@[simp] theorem flushStep_requests (s : State) (q : Latches) : (s.flushStep q).requests = s.requests := by
  rcases flushStep_cases s q with ⟨-, -, he⟩ | ⟨tx, later, -, -, he⟩ | ⟨tx, later, -, -, he⟩ | ⟨-, he⟩
  · rw [he]
  · rw [he]
  · rw [he]
  · rw [he, State.commit_requests]

end

theorem State.Inv.fresh {c : Config} (hc : c.wf = true) : (State.fresh c).Inv where
  cfg := hc
  fbForm := Memory.wf_zeros
  fbSize := Memory.within_zeros _
  snapForm := Memory.wf_zeros
  snapSize := Memory.within_zeros _
  slot := rfl
  phase := trivial
  legal := fun _ hr => absurd hr List.not_mem_nil

/-- Settles O1: both memories of a fresh state are the memory of zeros. -/
theorem resetStateHasTheTableValues : Obligations.ResetStateHasTheTableValues :=
  ⟨rfl, fun _ => ⟨Memory.read_zeros, Memory.read_zeros, rfl, rfl⟩⟩

/-- Settles O3: the memories are zero, the phase is IDLE and nothing has been answered yet. -/
theorem resetMeetsTheInvariant : Obligations.ResetMeetsTheInvariant :=
  ⟨.fresh (by decide), fun _ => .fresh⟩

/-- Settles O11: with no reset the step is that of the flush, which leaves the port as it is. -/
theorem requestsAreHeldWhileFlushing : Obligations.RequestsAreHeldWhileFlushing := by
  intro s t q hs hr h
  obtain ⟨hc, -⟩ := step_next h
  rw [step_flushing hc hr hs] at h
  cases h
  rw [flushStep_requests, State.sampled_requests]

/-- Settles O21: in IDLE with an empty slot the step accepts the word, and a word that decodes is executed. -/
theorem stepRunsThePresentedRequest : Obligations.StepRunsThePresentedRequest := by
  intro s w later i hc hr hs hslot hq hd
  calc step s = s.sampled.advance := step_noReset hc hr
    _ = s.sampled.accept w later := advance_request (s := s.sampled) hs hslot hq
    _ = exec i (s.sampled.takeRequest later) := accept_ok hd

/-- Settles O23: with no word on the port and none in the slot the step only samples the reset line. -/
theorem idleWaitsForARequest : Obligations.IdleWaitsForARequest := by
  intro s hc hr hs hslot hq
  exact (step_noReset hc hr).trans (advance_idle hs hslot hq)

/-- Settles O47: while a transaction is left the step of the flush is Transact, here with the answer OK. -/
theorem transactAnsweredOkAdvancesTheCursor : Obligations.TransactAnsweredOkAdvancesTheCursor := by
  intro s q tx later hc hr hs hx ha
  have hok : s.sampled.answers = .ok :: later := ha
  rw [step_flushing hc hr hs, flushStep_transact hx, transact_ok hok]
  rfl

end Sys2Proof.Machine
end

section
/-! PROOFS. The invariant (R35): every kind of step keeps it, and from a state that meets it a step always has a next
state (R31, R200). -/

namespace Sys2Proof.Machine

namespace State.Inv
variable {s t : State}

/-- The invariant does not speak of the reset line. -/
theorem setResetLine (h : s.Inv) (later : List Bool) : { s with resetLine := later }.Inv :=
  ⟨h.cfg, h.fbForm, h.fbSize, h.snapForm, h.snapSize, h.slot, h.phase, h.legal⟩

theorem resetCore (h : s.Inv) : s.resetCore.Inv :=
  ⟨h.cfg, Memory.wf_zeros, Memory.within_zeros _, Memory.wf_zeros, Memory.within_zeros _, h.slot, trivial, h.legal⟩

/-- An illegal word is answered by `raise`; a legal one is a request, run with the previous response gone. -/
theorem accept (h : s.Inv) (hs : s.seq = .idle) {w : ReqWord} {later : List ReqWord}
    (ha : s.accept w later = .next t) : t.Inv := by
  have htaken := h.takeRequest hs later
  rcases accept_next ha with ⟨e, -, rfl⟩ | ⟨i, -, hi, he⟩
  · exact htaken.raise _
  · exact htaken.exec_request hs (s.takeRequest_response later) hi he

/-- The empty slot and the legal phase leave three of the five kinds of step: of a flush, an acceptance, a wait. -/
theorem advance (h : s.Inv) (ha : s.advance = .next t) : t.Inv := by
  rcases advance_next ha with ⟨q, hs, rfl⟩ | ⟨p, hs, -⟩ | ⟨-, w, hw, -⟩ | ⟨hs, -, w, later, -, hacc⟩ | ⟨-, -, -, rfl⟩
  · exact h.flushStep hs
  · exact absurd hs (h.not_commanding p)
  · rw [h.slot] at hw; cases hw
  · exact h.accept hs hacc
  · exact h

theorem step (h : s.Inv) (hst : step s = .next t) : t.Inv := by
  obtain ⟨-, ⟨later, -, rfl⟩ | ⟨-, ha⟩⟩ := step_next hst
  · exact (h.setResetLine later).resetCore
  · exact h.sampled.advance ha

end State.Inv

/-- Settles O4: a step is a reset or a step of FBCORE, and each kind of either keeps the invariant. -/
theorem stepKeepsTheInvariant : Obligations.StepKeepsTheInvariant := fun _ _ h => h.step

section
variable {s : State}

/-- No request stops with a fault or a refusal under a well-formed configuration (R139, R202). -/
theorem exec_request_answers (hc : s.cfg.wf = true) {i : Instr} (hi : i.isRequest = true) :
    ∃ t, exec i s = .next t := by
  rcases exec_request_cases hc hi with ⟨_, _, -, e⟩ | ⟨_, e⟩ | e | ⟨_, -, -, e⟩ | ⟨_, -, -, e⟩
  all_goals exact ⟨_, e⟩

theorem accept_answers (hc : s.cfg.wf = true) (w : ReqWord) (later : List ReqWord) :
    ∃ t, s.accept w later = .next t := by
  cases hd : decodeReq w with
  | error e => exact ⟨_, accept_illegal hd⟩
  | ok i =>
    obtain ⟨t, ht⟩ := exec_request_answers (s := s.takeRequest later) hc (decodeReq_isRequest hd)
    exact ⟨t, (accept_ok hd).trans ht⟩

theorem State.Inv.advance_answers (h : s.Inv) : ∃ t, s.advance = .next t := by
  cases hs : s.seq with
  | flushing q => exact ⟨_, advance_flushing hs⟩
  | commanding p => exact absurd hs (h.not_commanding p)
  | idle =>
    cases hq : s.requests with
    | nil => exact ⟨s, advance_idle hs h.slot hq⟩
    | cons w later =>
      rw [advance_request hs h.slot hq]
      exact accept_answers h.cfg w later

end

/-- Settles O5: a reset has a next state, and so has each step of FBCORE under the invariant. -/
theorem stepAlwaysAnswersANextState : Obligations.StepAlwaysAnswersANextState := by
  intro s h
  by_cases hr : s.noReset
  · rw [step_noReset h.cfg hr]
    exact h.sampled.advance_answers
  · obtain ⟨later, hl⟩ := not_noReset_iff.1 hr
    exact ⟨_, step_reset h.cfg hl⟩

end Sys2Proof.Machine
end

section
/-! PROOFS. Who writes SNAP (R26, R143, R230): the Commit and a reset; every other kind of step keeps it. -/

namespace Sys2Proof.Machine

section
variable {s t : State}

/-- R26: of the steps of a flush only the Commit writes SNAP. -/
theorem flushStep_snap (s : State) (q : Latches) :
    (s.flushStep q).snap = s.snap ∨ q.txlist.length ≤ q.txpos ∧ (s.flushStep q).snap = s.fb := by
  rcases flushStep_cases s q with ⟨-, -, he⟩ | ⟨tx, later, -, -, he⟩ | ⟨tx, later, -, -, he⟩ | ⟨hend, he⟩
  · exact .inl (by rw [he])
  · exact .inl (by rw [he])
  · exact .inl (by rw [he])
  · exact .inr ⟨hend, by rw [he, State.commit_snap]⟩

@[simp] theorem commandStep_snap (s : State) (p : List Tx) : (s.commandStep p).snap = s.snap := by
  obtain ⟨q, l, h, he⟩ := commandStep_frame s p
  rw [he]

theorem exec_snap {i : Instr} (h : exec i s = .next t) : t.snap = s.snap := by
  obtain ⟨-, hsnap, -⟩ := exec_frame h
  exact hsnap

theorem runCommand_snap {w : CtrlWord} (h : s.runCommand w = .next t) : t.snap = s.snap := by
  obtain ⟨i, -, he⟩ := runCommand_next h
  exact (exec_snap he).trans s.takeCommand_snap

theorem accept_snap {w : ReqWord} {later : List ReqWord} (h : s.accept w later = .next t) : t.snap = s.snap := by
  rcases accept_next h with ⟨e, -, rfl⟩ | ⟨i, -, -, he⟩
  · rw [State.raise_snap, State.takeRequest_snap]
  · exact (exec_snap he).trans (s.takeRequest_snap later)

/-- R26: a step of FBCORE keeps SNAP, or it is the Commit. -/
theorem advance_snap (h : s.advance = .next t) : t.snap = s.snap ∨
    ∃ q, s.seq = .flushing q ∧ q.txlist.length ≤ q.txpos ∧ t.snap = s.fb := by
  rcases advance_next h with ⟨q, hs, rfl⟩ | ⟨p, -, rfl⟩ | ⟨-, w, -, hw⟩ | ⟨-, -, w, later, -, ha⟩ | ⟨-, -, -, rfl⟩
  · exact (flushStep_snap s q).imp_right fun ⟨hend, he⟩ => ⟨q, hs, hend, he⟩
  · exact .inl (commandStep_snap s p)
  · exact .inl (runCommand_snap hw)
  · exact .inl (accept_snap ha)
  · exact .inl rfl

end

/-- Settles O7: a step that changes SNAP is a reset, or the one kind of step of FBCORE that does not keep SNAP. -/
theorem onlyCommitAndResetWriteSnap : Obligations.OnlyCommitAndResetWriteSnap := by
  intro s t h hne
  obtain ⟨-, ⟨later, hl, -⟩ | ⟨-, ha⟩⟩ := step_next h
  · exact .inl (by rw [hl, List.head?_cons])
  · exact .inr ((advance_snap ha).resolve_left hne)

end Sys2Proof.Machine
end

section
/-! PROOFS. The history (R33, R62): only a Transact step adds to it, and what it adds is the transaction at the cursor with
its answer; every other kind of step keeps it. -/

namespace Sys2Proof.Machine

section
variable {s t : State}

/-- R31, R33: of the steps of a flush only Transact adds to the history. -/
theorem flushStep_history (s : State) (q : Latches) :
    (s.flushStep q).history = s.history ∨
      ∃ tx a, q.txlist[q.txpos]? = some tx ∧ s.answers.head? = some a ∧
        (s.flushStep q).history = s.history ++ [⟨tx, a⟩] := by
  rcases flushStep_cases s q with ⟨-, -, he⟩ | ⟨tx, later, hx, ha, he⟩ | ⟨tx, later, hx, ha, he⟩ | ⟨-, he⟩
  · exact .inl (by rw [he])
  · exact .inr ⟨tx, .ok, hx, by rw [ha, List.head?_cons], by rw [he]⟩
  · exact .inr ⟨tx, .fail, hx, by rw [ha, List.head?_cons], by rw [he]⟩
  · exact .inl (by rw [he, State.commit_history])

theorem exec_history {i : Instr} (h : exec i s = .next t) : t.history = s.history := by
  obtain ⟨-, -, hhistory, -⟩ := exec_frame h
  exact hhistory

/-- No transaction is issued in an Accept step, of a legal word or an illegal one. -/
theorem accept_history {w : ReqWord} {later : List ReqWord} (h : s.accept w later = .next t) :
    t.history = s.history := by
  rcases accept_next h with ⟨e, -, rfl⟩ | ⟨i, -, -, he⟩
  · rw [State.raise_history, State.takeRequest_history]
  · exact (exec_history he).trans (s.takeRequest_history later)

/-- The invariant leaves a step of a flush, an acceptance and a wait; the last two keep the history. -/
theorem State.Inv.advance_history (hinv : s.Inv) (h : s.advance = .next t) : t.history = s.history ∨
    ∃ q tx a, s.seq = .flushing q ∧ q.txlist[q.txpos]? = some tx ∧ s.answers.head? = some a ∧
      t.history = s.history ++ [⟨tx, a⟩] := by
  rcases advance_next h with ⟨q, hs, rfl⟩ | ⟨p, hs, -⟩ | ⟨-, w, hw, -⟩ | ⟨-, -, w, later, -, ha⟩ | ⟨-, -, -, rfl⟩
  · exact (flushStep_history s q).imp_right fun ⟨tx, a, hissued⟩ => ⟨q, tx, a, hs, hissued⟩
  · exact absurd hs (hinv.not_commanding p)
  · rw [hinv.slot] at hw; cases hw
  · exact .inl (accept_history ha)
  · exact .inl rfl

end

/-- Settles O9: a reset keeps the history, and a step of FBCORE adds at most the transaction at the cursor. -/
theorem aStepIssuesAtMostTheTransactionAtTheCursor :
    Obligations.AStepIssuesAtMostTheTransactionAtTheCursor := by
  intro s t hinv h
  obtain ⟨-, ⟨later, -, rfl⟩ | ⟨-, ha⟩⟩ := step_next h
  · exact .inl (State.resetCore_history _)
  · exact hinv.sampled.advance_history ha

end Sys2Proof.Machine
end

section
/-! PROOFS. The decoder and the encoder (R70 to R79): what a decoded word is, and the round trips. -/

namespace Sys2Proof

section
variable {w : ReqWord} {i : Instr}

/-- R75: the words that decode, row by row, each with its instruction. -/
theorem decodeReq_eq_ok_iff : decodeReq w = .ok i ↔
    (reqOp w = 0x01 ∧ field w 49 7 = 0 ∧ field w 32 16 = 0 ∧ i = .setpx (reqX w) (reqY w) (reqOn w)) ∨
    (reqOp w = 0x02 ∧ field w 0 56 = 0 ∧ i = .clear) ∨
    (reqOp w = 0x03 ∧ field w 32 24 = 0 ∧ i = .byteat (reqIdx w)) ∨
    (reqOp w = 0x04 ∧ field w 0 56 = 0 ∧ i = .flush) ∨
    (reqOp w = 0x05 ∧ field w 0 56 = 0 ∧ i = .flushall) := by
  constructor
  · intro h
    unfold decodeReq at h
    repeat' split at h
    all_goals cases h
    all_goals simp_all
  · rintro (⟨ho, h1, h0, rfl⟩ | ⟨ho, h0, rfl⟩ | ⟨ho, h0, rfl⟩ | ⟨ho, h0, rfl⟩ | ⟨ho, h0, rfl⟩)
    · simp [decodeReq, ho, h1, h0]
    · simp [decodeReq, ho, h0]
    · simp [decodeReq, ho, h0]
    · simp [decodeReq, ho, h0]
    · simp [decodeReq, ho, h0]

/-- R73, R74: the operands of a decoded request fit their fields. -/
theorem decodeReq_wf (h : decodeReq w = .ok i) : i.wf = true := by
  obtain ⟨-, -, -, rfl⟩ | ⟨-, -, rfl⟩ | ⟨-, -, rfl⟩ | ⟨-, -, rfl⟩ | ⟨-, -, rfl⟩ := decodeReq_eq_ok_iff.1 h
  · simp [Instr.wf, reqX, reqY, coordOk_toInt]
  · rfl
  · exact wf_byteat_iff.2 (BitVec.isLt _)
  · rfl
  · rfl

/-- R75, R80: the fields of a word that decodes, with its must-be-0 bits, are all of it. -/
theorem encode_of_decodeReq (c : Config) (h : decodeReq w = .ok i) : encode c i = .req w := by
  obtain ⟨ho, h1, h0, rfl⟩ | ⟨ho, h0, rfl⟩ | ⟨ho, h0, rfl⟩ | ⟨ho, h0, rfl⟩ | ⟨ho, h0, rfl⟩ := decodeReq_eq_ok_iff.1 h
  · simp only [encode, reqX, reqY, BitVec.ofInt_toInt]
    rw [← ho, reqWord_of_fields h1 h0]
  · simp only [encode]
    rw [← ho, reqWord_of_rest h0]
  · obtain ⟨hy, hx⟩ := field_IDX_halves w
    simp only [encode, reqIdx, BitVec.ofNat_toNat, BitVec.setWidth_eq, hy, hx]
    rw [← ho, reqWord_of_upper h0]
  · simp only [encode]
    rw [← ho, reqWord_of_rest h0]
  · simp only [encode]
    rw [← ho, reqWord_of_rest h0]

end

section
variable {c : Config} {w : CtrlWord} {i : Instr}

/-- R79: the words that are read as a controller command, the page command only where the opcode is not the column one. -/
theorem decodeCtrl_eq_ok_iff : decodeCtrl c w = .ok i ↔
    (field w 16 8 = c.opcSetColumn ∧ i = .setColumnAddress (field w 8 8).toNat (field w 0 8).toNat) ∨
    (field w 16 8 ≠ c.opcSetColumn ∧ field w 16 8 = c.opcSetPage ∧
      i = .setPageAddress (field w 8 8).toNat (field w 0 8).toNat) := by
  simp only [decodeCtrl]
  split
  · next ho => simp [ho, eq_comm]
  · next ho =>
    split
    · next hp => simp [hp ▸ ho, hp, eq_comm]
    · next hp => simp [ho, hp]

theorem decodeCtrl_wf (h : decodeCtrl c w = .ok i) : i.wf = true := by
  obtain ⟨-, rfl⟩ | ⟨-, -, rfl⟩ := decodeCtrl_eq_ok_iff.1 h
  · exact Bool.and_eq_true_iff.2 ⟨decide_eq_true (BitVec.isLt _), decide_eq_true (BitVec.isLt _)⟩
  · exact Bool.and_eq_true_iff.2 ⟨decide_eq_true (BitVec.isLt _), decide_eq_true (BitVec.isLt _)⟩

theorem encode_of_decodeCtrl (h : decodeCtrl c w = .ok i) : encode c i = .ctrl w := by
  obtain ⟨ho, rfl⟩ | ⟨-, ho, rfl⟩ := decodeCtrl_eq_ok_iff.1 h
  · simp only [encode, BitVec.ofNat_toNat, BitVec.setWidth_eq]
    rw [← ho, ctrlWord_of_fields]
  · simp only [encode, BitVec.ofNat_toNat, BitVec.setWidth_eq]
    rw [← ho, ctrlWord_of_fields]

end

section
variable (c : Config) (x y : BitVec 16) (a b : Byte)

/-! Each row's word, from any values of its fields, decodes to the instruction with those values. -/

theorem decodeReq_setpx (on : Bool) : decodeReq (reqWord 0x01 on y x) = .ok (.setpx x.toInt y.toInt on) :=
  decodeReq_eq_ok_iff.2 (.inl (by simp [reqX, reqY]))

theorem decodeReq_clear : decodeReq (reqWord 0x02 false 0 0) = .ok .clear :=
  decodeReq_eq_ok_iff.2 (.inr (.inl (by simp)))

theorem decodeReq_byteat : decodeReq (reqWord 0x03 false y x) = .ok (.byteat (y ++ x).toNat) :=
  decodeReq_eq_ok_iff.2 (.inr (.inr (.inl (by simp [reqIdx]))))

theorem decodeReq_flush : decodeReq (reqWord 0x04 false 0 0) = .ok .flush :=
  decodeReq_eq_ok_iff.2 (.inr (.inr (.inr (.inl (by simp)))))

theorem decodeReq_flushall : decodeReq (reqWord 0x05 false 0 0) = .ok .flushall :=
  decodeReq_eq_ok_iff.2 (.inr (.inr (.inr (.inr (by simp)))))

theorem decodeCtrl_setColumn :
    decodeCtrl c (ctrlWord c.opcSetColumn a b) = .ok (.setColumnAddress a.toNat b.toNat) :=
  decodeCtrl_eq_ok_iff.2 (.inl (by simp))

theorem decodeCtrl_setPage (hne : c.opcSetColumn ≠ c.opcSetPage) :
    decodeCtrl c (ctrlWord c.opcSetPage a b) = .ok (.setPageAddress a.toNat b.toNat) :=
  decodeCtrl_eq_ok_iff.2 (.inr (by simp [hne.symm]))

end

/-- R70, R73, R74, R79: an operand in range is the value of its own field, and the two controller opcodes differ (R7), so
no operand and no row is lost in the word. -/
theorem decode_encode {c : Config} {i : Instr} (hc : c.wf = true) (hi : i.wf = true) :
    decode c (encode c i) = .ok i := by
  cases i with
  | setpx x y on =>
    obtain ⟨hx, hy⟩ := Bool.and_eq_true_iff.1 hi
    simp only [encode, decode, decodeReq_setpx, toInt_coord hx, toInt_coord hy]
  | clear => exact decodeReq_clear
  | byteat idx =>
    simp only [encode, decode, decodeReq_byteat, field_append_field, BitVec.toNat_ofNat,
      Nat.mod_eq_of_lt (wf_byteat_iff.1 hi)]
  | flush => exact decodeReq_flush
  | flushall => exact decodeReq_flushall
  | setColumnAddress sc ec =>
    simp only [Instr.wf, Bool.and_eq_true, decide_eq_true_eq] at hi
    simp [encode, decode, decodeCtrl_setColumn, Nat.mod_eq_of_lt, hi]
  | setPageAddress sp ep =>
    simp only [Instr.wf, Bool.and_eq_true, decide_eq_true_eq] at hi
    simp [encode, decode, decodeCtrl_setPage, Config.wf_opcodes_ne hc, Nat.mod_eq_of_lt, hi]

/-- Settles O14: the round trip, row by row. -/
theorem decodeOfEncodeIsTheInstruction : Obligations.DecodeOfEncodeIsTheInstruction :=
  fun _ _ => decode_encode

/-- Settles O15: a word that decodes has its must-be-0 bits 0, so its fields are all of it. -/
theorem encodeOfDecodeIsTheWord : Obligations.EncodeOfDecodeIsTheWord := by
  intro c w i h
  cases w with
  | req w => exact ⟨decodeReq_wf h, encode_of_decodeReq c h⟩
  | ctrl w => exact ⟨decodeCtrl_wf h, encode_of_decodeCtrl h⟩

end Sys2Proof
end

section
/-! PROOFS. The opcode table's rows (R75, R76, R79), and the values of the decoded operands (R72 to R74). -/

namespace Sys2Proof

/-- The encoder's word of every instruction agrees with its row of the opcode table. -/
theorem encode_matches_row (i : Instr) : Laws.TableRow.Statement i := by
  cases i with
  | setpx x y on => exact Laws.TableRow.setpx x y on
  | clear => exact Laws.TableRow.clear
  | byteat idx => exact Laws.TableRow.byteat idx
  | flush => exact Laws.TableRow.flush
  | flushall => exact Laws.TableRow.flushall
  | setColumnAddress sc ec => exact Laws.TableRow.setColumnAddress sc ec
  | setPageAddress sp ep => exact Laws.TableRow.setPageAddress sp ep

/-- R75: a word agrees with the row of the request it decodes to, being the encoder's word of it. -/
theorem decodeReq_matches_row {w : ReqWord} {i : Instr} (h : decodeReq w = .ok i) :
    w &&& BitVec.ofNat 64 (Laws.TableRow.row i).1 = BitVec.ofNat 64 (Laws.TableRow.row i).2 := by
  have hrow := encode_matches_row i
  rwa [Laws.TableRow.Statement, encode_of_decodeReq _ h] at hrow

theorem decodeCtrl_matches_row {w : CtrlWord} {i : Instr} (h : decodeCtrl Config.default w = .ok i) :
    w &&& BitVec.ofNat 24 (Laws.TableRow.row i).1 = BitVec.ofNat 24 (Laws.TableRow.row i).2 := by
  have hrow := encode_matches_row i
  rwa [Laws.TableRow.Statement, encode_of_decodeCtrl h] at hrow

/-- A field that a mask keeps whole is the field of the pattern. -/
theorem field_of_masked {n lo len : Nat} {w mask pattern : BitVec n} (h : w &&& mask = pattern)
    (hm : field mask lo len = BitVec.allOnes len) : field w lo len = field pattern lo len := by
  rw [← h, field_and, hm, BitVec.and_allOnes]

section
variable {w : ReqWord}

theorem decodeReq_of_setpx_row (h : w &&& 0xFFFEFFFF00000000 = 0x0100000000000000) :
    ∃ x y on, decodeReq w = .ok (.setpx x y on) :=
  ⟨_, _, _, decodeReq_eq_ok_iff.2 (.inl ⟨(field_of_masked h (by decide)).trans (by decide),
    (field_of_masked h (by decide)).trans (by decide), (field_of_masked h (by decide)).trans (by decide), rfl⟩)⟩

theorem decodeReq_of_byteat_row (h : w &&& 0xFFFFFFFF00000000 = 0x0300000000000000) :
    ∃ idx, decodeReq w = .ok (.byteat idx) :=
  ⟨_, decodeReq_eq_ok_iff.2 (.inr (.inr (.inl ⟨(field_of_masked h (by decide)).trans (by decide),
    (field_of_masked h (by decide)).trans (by decide), rfl⟩)))⟩

/-- The rows with no operand fix every bit of the word. -/
theorem decodeReq_of_full_row {pattern : ReqWord} {i : Instr} (h : w &&& 0xFFFFFFFFFFFFFFFF = pattern)
    (hp : decodeReq pattern = .ok i) : decodeReq w = .ok i := by
  have hw : w = pattern := (BitVec.and_allOnes (x := w)).symm.trans h
  rw [hw, hp]

end

section
variable {w : CtrlWord}

theorem decodeCtrl_of_setColumn_row (h : w &&& 0xFF0000 = 0x210000) :
    ∃ sc ec, decodeCtrl Config.default w = .ok (.setColumnAddress sc ec) :=
  ⟨_, _, decodeCtrl_eq_ok_iff.2 (.inl ⟨(field_of_masked h (by decide)).trans (by decide), rfl⟩)⟩

theorem decodeCtrl_of_setPage_row (h : w &&& 0xFF0000 = 0x220000) :
    ∃ sp ep, decodeCtrl Config.default w = .ok (.setPageAddress sp ep) := by
  have hop : field w 16 8 = Config.default.opcSetPage := (field_of_masked h (by decide)).trans (by decide)
  exact ⟨_, _, decodeCtrl_eq_ok_iff.2 (.inr ⟨by rw [hop]; decide, hop, rfl⟩)⟩

end

/-- Settles O16: a word that decodes is the encoder's word, which agrees with its row; and a row fixes the opcode and the
must-be-0 bits, which are all that the decoder asks of a word. -/
theorem decoderAcceptsExactlyTheTableRows : Obligations.DecoderAcceptsExactlyTheTableRows := by
  refine ⟨fun w => ⟨⟨?_, decodeReq_of_setpx_row⟩, ⟨?_, fun h => ?_⟩, ⟨?_, decodeReq_of_byteat_row⟩,
    ⟨?_, fun h => ?_⟩, ⟨?_, fun h => ?_⟩⟩, fun w => ⟨⟨?_, decodeCtrl_of_setColumn_row⟩, ⟨?_, decodeCtrl_of_setPage_row⟩⟩⟩
  · rintro ⟨x, y, on, h⟩; exact decodeReq_matches_row h
  · exact decodeReq_matches_row
  · exact decodeReq_of_full_row h decodeReq_clear
  · rintro ⟨idx, h⟩; exact decodeReq_matches_row h
  · exact decodeReq_matches_row
  · exact decodeReq_of_full_row h decodeReq_flush
  · exact decodeReq_matches_row
  · exact decodeReq_of_full_row h decodeReq_flushall
  · rintro ⟨sc, ec, h⟩; exact decodeCtrl_matches_row h
  · rintro ⟨sp, ep, h⟩; exact decodeCtrl_matches_row h

/-- R72: `W[48]` is bit 48. -/
theorem reqOn_eq_getLsbD (w : ReqWord) : reqOn w = w.getLsbD 48 := by
  have hbit : (field w 48 1).getLsbD 0 = w.getLsbD 48 := getLsbD_field w 48 1 0
  rw [reqOn, ← hbit]
  generalize field w 48 1 = b
  revert b; decide

/-- R73: the signed value of a coordinate field, given by its range and by its residue. -/
theorem toInt_coord_spec (v : BitVec 16) : -32768 ≤ v.toInt ∧ v.toInt ≤ 32767 ∧ v.toInt % 65536 = (v.toNat : Int) := by
  obtain ⟨hlo, hhi⟩ := coordOk_iff.1 (coordOk_toInt v)
  refine ⟨hlo, hhi, ?_⟩
  have hlt := v.isLt
  rw [BitVec.toInt_eq_toNat_bmod]
  exact Int.bmod_emod.trans (Int.emod_eq_of_lt (by omega) (by omega))

/-- Settles O17: the operands of a decoded request are its fields, as signed or unsigned values. -/
theorem decodedOperandsAreTheFieldValues : Obligations.DecodedOperandsAreTheFieldValues := by
  refine fun w => ⟨fun x y on h => ?_, fun idx h => ?_⟩
  · have hi := decodeReq_eq_ok_iff.1 h
    simp only [Instr.setpx.injEq, reduceCtorEq, and_false, or_false] at hi
    obtain ⟨-, -, -, rfl, rfl, rfl⟩ := hi
    obtain ⟨hx, hx', hxv⟩ := toInt_coord_spec (field w 0 16)
    obtain ⟨hy, hy', hyv⟩ := toInt_coord_spec (field w 16 16)
    rw [field_toNat] at hxv hyv
    exact ⟨reqOn_eq_getLsbD w, hx, hx', hxv.trans (by simp), hy, hy', hyv⟩
  · have hi := decodeReq_eq_ok_iff.1 h
    simp only [Instr.byteat.injEq, reduceCtorEq, and_false, or_false, false_or] at hi
    obtain ⟨-, -, rfl⟩ := hi
    rw [reqIdx, field_toNat, pow_zero, Nat.div_one]

end Sys2Proof
end

section
/-! PROOFS. The codes of transactions and responses (R77, R78), and the steps that run a controller command (R79, R180;
log entry 10) or answer an illegal word (R76). -/

namespace Sys2Proof

/-- R78: the kind bit stands above the byte (log entry 21). -/
theorem Tx.encode_toNat (t : Tx) : t.encode.toNat = 256 * t.kind.code.toNat + t.byte.toNat := by
  rw [Tx.encode, BitVec.toNat_append, ← Nat.shiftLeft_add_eq_or_of_lt t.byte.isLt, Nat.shiftLeft_eq]
  omega

theorem field_kind_encode (t : Tx) : field t.encode 8 1 = t.kind.code :=
  BitVec.extractLsb'_append_eq_left

theorem field_byte_encode (t : Tx) : field t.encode 0 8 = t.byte :=
  BitVec.extractLsb'_append_eq_right

/-- R78: the nine bits of a transaction are read back as it. -/
theorem decodeTx_encode (t : Tx) : decodeTx t.encode = t := by
  obtain ⟨kind, byte⟩ := t
  rw [decodeTx, field_kind_encode, field_byte_encode]
  cases kind with
  | cmd => rfl
  | data => rfl

namespace Machine

/-- R77: the status stands above the data byte. -/
theorem rspWord_toNat (st : Status) (d : Byte) : (rspWord st d).toNat = 256 * (statusCode st).toNat + d.toNat := by
  rw [rspWord, BitVec.toNat_append, ← Nat.shiftLeft_add_eq_or_of_lt d.isLt, Nat.shiftLeft_eq]
  omega

@[simp] theorem rspStatus_rspWord (st : Status) (d : Byte) : rspStatus (rspWord st d) = statusCode st :=
  BitVec.extractLsb'_append_eq_left

@[simp] theorem rspData_rspWord (st : Status) (d : Byte) : rspData (rspWord st d) = d :=
  BitVec.extractLsb'_append_eq_right

/-- Settles O19: each word is its code times 256 and its byte, and its two fields read them back. -/
theorem transactionAndResponseCodes : Obligations.TransactionAndResponseCodes :=
  ⟨fun b => ⟨(Tx.encode_toNat ⟨.cmd, b⟩).trans (Nat.zero_add _), Tx.encode_toNat ⟨.data, b⟩⟩, decodeTx_encode,
    fun d => ⟨(rspWord_toNat .ok d).trans (Nat.zero_add _), rspWord_toNat .busError d, rspWord_toNat .outOfRange d,
      rspWord_toNat .illegalRequest d⟩,
    fun st d => ⟨rspStatus_rspWord st d, rspData_rspWord st d⟩⟩

/-- R79: the transactions of a controller command are the bytes of its word in issue order. -/
def wordTxs (w : CtrlWord) : List Tx := [⟨.cmd, field w 16 8⟩, ⟨.cmd, field w 8 8⟩, ⟨.cmd, field w 0 8⟩]

@[simp] theorem wordTxs_ctrlWord (op a b : Byte) : wordTxs (ctrlWord op a b) = [⟨.cmd, op⟩, ⟨.cmd, a⟩, ⟨.cmd, b⟩] := by
  simp [wordTxs]

theorem setColumnTxs_eq (c : Config) (sc ec : Nat) :
    setColumnTxs c sc ec = wordTxs (ctrlWord c.opcSetColumn (windowByte sc) (windowByte ec)) :=
  (wordTxs_ctrlWord _ _ _).symm

theorem setPageTxs_eq (c : Config) (sp ep : Nat) :
    setPageTxs c sp ep = wordTxs (ctrlWord c.opcSetPage (windowByte sp) (windowByte ep)) :=
  (wordTxs_ctrlWord _ _ _).symm

/-- Settles O40: the two halves of WindowCmds are the bytes of the two encoded words. -/
theorem windowCommandsAreTheTwoControllerCommands : Obligations.WindowCommandsAreTheTwoControllerCommands := by
  refine fun c w => ⟨_, _, rfl, rfl, ?_⟩
  rw [windowCmds, setColumnTxs_eq, setPageTxs_eq]
  rfl

/-- Settles O56: what the adapter does with the three transactions, phase by phase. -/
theorem controllerCommandsAreThreeCommandTransactions : Obligations.ControllerCommandsAreThreeCommandTransactions := by
  refine fun s a b => ⟨fun q hs => ⟨?_, ?_⟩, fun p hs => ⟨?_, ?_⟩, fun hs => ⟨?_, ?_⟩⟩
  · exact congrArg Host.Outcome.next (emit_flushing hs _)
  · exact congrArg Host.Outcome.next (emit_flushing hs _)
  · exact congrArg Host.Outcome.next (emit_commanding hs _)
  · exact congrArg Host.Outcome.next (emit_commanding hs _)
  · exact congrArg Host.Outcome.next (emit_idle hs _)
  · exact congrArg Host.Outcome.next (emit_idle hs _)

/-- Settles O22: in IDLE with an empty slot the step accepts the word, and a word that does not decode is answered by
`raise`, which finds the phase IDLE already. -/
theorem illegalWordIsAnsweredAndChangesNothing : Obligations.IllegalWordIsAnsweredAndChangesNothing := by
  intro s w later e hc hr hs hslot hq hd
  calc step s = s.sampled.advance := step_noReset hc hr
    _ = s.sampled.accept w later := advance_request (s := s.sampled) hs hslot hq
    _ = .next ((s.sampled.takeRequest later).raise .illegalRequest) := accept_illegal hd
    _ = _ := by rw [hs]; rfl

/-- Settles O24: in IDLE the step runs the command of the slot, and a word that is a controller command is executed. -/
theorem stepRunsTheLoneCommand : Obligations.StepRunsTheLoneCommand := by
  intro s w i hc hr hs hslot hd
  calc step s = s.sampled.advance := step_noReset hc hr
    _ = s.sampled.runCommand w := advance_command (s := s.sampled) hs hslot
    _ = exec i s.sampled.takeCommand := runCommand_ok (s := s.sampled) hd

section
variable {s : State} {i : Instr} {w : CtrlWord}

/-- R79: what a controller command hands to the adapter, read from its word. -/
theorem exec_ctrl (h : decodeCtrl s.cfg w = .ok i) : exec i s = .next (s.emit (wordTxs w)) := by
  obtain ⟨ho, rfl⟩ | ⟨-, ho, rfl⟩ := decodeCtrl_eq_ok_iff.1 h
  · rw [exec_setColumnAddress, execSetColumnAddress, setColumnTxs_eq]
    simp only [windowByte, BitVec.ofNat_toNat, BitVec.setWidth_eq]
    rw [← ho, ctrlWord_of_fields]
  · rw [exec_setPageAddress, execSetPageAddress, setPageTxs_eq]
    simp only [windowByte, BitVec.ofNat_toNat, BitVec.setWidth_eq]
    rw [← ho, ctrlWord_of_fields]

theorem noReset_of_forall (h : ∀ r ∈ s.resetLine, r = false) : s.noReset := fun hr =>
  Bool.false_ne_true (h true (List.mem_of_head? hr)).symm

end

/-- The state after lone commands have all been issued and answered OK, one step each. -/
def State.issued (s : State) (txs : List Tx) (later : List Answer) : State :=
  { s with seq := .idle, answers := later, history := s.history ++ txs.map (⟨·, .ok⟩),
           resetLine := s.resetLine.drop txs.length }

/-- A step of a run in the phase of lone commands with the transport answering OK. -/
theorem run_commanding_cons {s : State} {tx : Tx} {rest : List Tx} {later : List Answer} (hc : s.cfg.wf = true)
    (hr : s.noReset) (hs : s.seq = .commanding (tx :: rest)) (ha : s.answers = .ok :: later) (k : Nat) :
    run (k + 1) s = run k { s with resetLine := s.resetLine.tail, answers := later, history := s.history ++ [⟨tx, .ok⟩],
                                   seq := if rest.isEmpty then .idle else .commanding rest } := by
  refine run_succ ?_ (acceptsIllegal_of_busy (by simp [hs])) k
  rw [step_noReset hc hr, advance_commanding (s := s.sampled) hs]
  simp only [State.commandStep, State.sampled_answers, ha]
  rfl

/-- Lone commands are issued in order, one in each step, while the transport answers OK. -/
theorem run_commanding : ∀ {txs : List Tx} {s : State} {later : List Answer}, txs ≠ [] → s.cfg.wf = true →
    (∀ r ∈ s.resetLine, r = false) → s.seq = .commanding txs →
    s.answers = List.replicate txs.length .ok ++ later → run txs.length s = .next (s.issued txs later)
  | [], _, _, hne, _, _, _, _ => absurd rfl hne
  | tx :: rest, s, later, _, hc, hr, hs, ha => by
    rw [List.length_cons, run_commanding_cons hc (noReset_of_forall hr) hs ha]
    cases rest with
    | nil => simp [run, State.issued]
    | cons tx' rest =>
      refine Eq.trans (run_commanding (List.cons_ne_nil _ _) ?_ ?_ rfl rfl) ?_
      · exact hc
      · exact fun r hm => hr r (List.mem_of_mem_tail hm)
      · simp [State.issued]

/-- Settles O57: the first step takes the command from the slot and opens the phase of lone commands with the bytes of the
word; the next three issue them. -/
theorem loneControllerCommandIssuesItsThreeBytes : Obligations.LoneControllerCommandIssuesItsThreeBytes := by
  intro s w i later hc hr hs hslot hd ha
  have hstep : step s = .next { s.sampled.takeCommand with seq := .commanding (wordTxs w) } := by
    rw [stepRunsTheLoneCommand s w i hc (noReset_of_forall hr) hs hslot hd]
    exact (exec_ctrl (s := s.sampled.takeCommand) hd).trans
      (congrArg Host.Outcome.next (emit_idle (s := s.sampled.takeCommand) hs _))
  have hrun : run 4 s = .next (State.issued { s.sampled.takeCommand with seq := .commanding (wordTxs w) }
      (wordTxs w) later) := by
    refine (run_succ hstep (acceptsIllegal_of_command hslot) 3).trans
      (run_commanding (txs := wordTxs w) (List.cons_ne_nil _ _) ?_ ?_ rfl ?_)
    · exact hc
    · exact fun r hm => hr r (List.mem_of_mem_tail hm)
    · exact ha
  exact ⟨_, hrun, rfl, rfl, rfl, rfl, rfl, rfl, rfl, rfl, rfl, rfl⟩

end Machine

end Sys2Proof
end

section
/-! PROOFS. The responses of a step (R31, R77): at most one, with a DATA byte other than 0x00 only for a BYTEAT that ends
OK. -/

namespace Sys2Proof.Machine

/-- R77: `t` has the responses of `s`, or one more, which stands on the port; its DATA is 0x00, or it is OK and its DATA is
a byte that `data` admits. -/
def RespondsOnce (s t : State) (data : Byte → Prop) : Prop :=
  t.responses = s.responses ∨
    ∃ st d, t.responses = s.responses ++ [rspWord st d] ∧ t.response = some (rspWord st d) ∧
      (d ≠ 0x00 → st = .ok ∧ data d)

namespace RespondsOnce
variable {s t u : State} {data data' : Byte → Prop}

theorem zero (st : Status) (hs : t.responses = s.responses ++ [rspWord st 0]) (ht : t.response = some (rspWord st 0)) :
    RespondsOnce s t data :=
  .inr ⟨st, 0, hs, ht, fun h => absurd rfl h⟩

theorem mono (h : RespondsOnce s t data) (hd : ∀ d, data d → data' d) : RespondsOnce s t data' :=
  h.imp_right fun ⟨st, d, hs, ht, hz⟩ => ⟨st, d, hs, ht, fun hne => (hz hne).imp_right (hd d)⟩

/-- What happens before without a response does not count. -/
theorem of_responses_eq (h : RespondsOnce s t data) (hu : s.responses = u.responses) : RespondsOnce u t data := by
  rwa [RespondsOnce, ← hu]

end RespondsOnce

section
variable {s t : State}

/-- R142, R143, R156: of the steps of a flush the abort and the Commit give its response, with DATA 0x00. -/
theorem flushStep_respondsOnce (s : State) (q : Latches) (data : Byte → Prop) :
    RespondsOnce s (s.flushStep q) data := by
  rcases flushStep_cases s q with ⟨-, -, he⟩ | ⟨tx, later, -, -, he⟩ | ⟨tx, later, -, -, he⟩ | ⟨-, he⟩
  · exact .inl (by rw [he])
  · exact .inl (by rw [he])
  · exact .zero .busError (by rw [he]) (by rw [he])
  · exact .zero .ok (by rw [he, State.commit_responses]) (by rw [he, State.commit_response])

@[simp] theorem commandStep_responses (s : State) (p : List Tx) : (s.commandStep p).responses = s.responses := by
  obtain ⟨q, l, h, he⟩ := commandStep_frame s p
  rw [he]

@[simp] theorem emit_responses (s : State) (txs : List Tx) : (s.emit txs).responses = s.responses := by
  obtain ⟨q, he⟩ := emit_frame s txs
  rw [he]

/-- Only BYTEAT of an index of FB gives a DATA byte other than 0x00, and then it is the byte at that index (R102). -/
theorem exec_respondsOnce (hc : s.cfg.wf = true) {i : Instr} (h : exec i s = .next t) :
    RespondsOnce s t fun d => ∃ idx, i = .byteat idx ∧ idx < s.cfg.n ∧ d = s.fb.read idx := by
  cases i with
  | setpx x y on =>
    rw [exec_setpx] at h
    cases hb : inb s.cfg x y with
    | true => rw [execSetpx_inb hc hb] at h; cases h; exact .zero .ok rfl rfl
    | false => rw [execSetpx_oob hb] at h; cases h; exact .zero .ok rfl rfl
  | clear => cases h; exact .zero .ok rfl rfl
  | byteat idx =>
    rw [exec_byteat] at h
    by_cases hi : idx < s.cfg.n
    · rw [execByteat_lt hi] at h; cases h
      exact .inr ⟨.ok, s.fb.read idx, rfl, rfl, fun _ => ⟨rfl, idx, rfl, hi, rfl⟩⟩
    · rw [execByteat_ge (Nat.not_lt.1 hi)] at h; cases h
      exact .zero .outOfRange rfl rfl
  | flush =>
    rw [exec_flush] at h
    by_cases hd : ∃ k, s.differsAt k
    · obtain ⟨k, hk⟩ := hd
      obtain ⟨q, hq, -⟩ := execFlush_changed hc hk
      rw [hq] at h; cases h; exact .inl rfl
    · rw [execFlush_unchanged fun i hi => hd ⟨i, hi⟩] at h; cases h
      exact .zero .ok s.flushUnchanged_responses s.flushUnchanged_response
  | flushall => rw [exec_flushall, execFlushall_eq hc] at h; cases h; exact .inl rfl
  | setColumnAddress a b => cases h; exact .inl (emit_responses s _)
  | setPageAddress a b => cases h; exact .inl (emit_responses s _)

/-- A lone command gives no response (log entry 10). -/
theorem runCommand_responses {w : CtrlWord} (h : s.runCommand w = .next t) : t.responses = s.responses := by
  obtain ⟨i, hd, he⟩ := runCommand_next h
  rw [exec_ctrl (s := s.takeCommand) hd] at he
  cases he
  exact emit_responses s.takeCommand _

/-- R31 (1), R76: an illegal word is answered with DATA 0x00, a legal one as its instruction answers. -/
theorem accept_respondsOnce (hc : s.cfg.wf = true) {w : ReqWord} {later : List ReqWord}
    (h : s.accept w later = .next t) :
    RespondsOnce s t fun d => ∃ idx, decodeReq w = .ok (.byteat idx) ∧ idx < s.cfg.n ∧ d = s.fb.read idx := by
  rcases accept_next h with ⟨e, -, rfl⟩ | ⟨i, hd, -, he⟩
  · exact .zero .illegalRequest rfl rfl
  · refine ((exec_respondsOnce (s := s.takeRequest later) hc he).of_responses_eq rfl).mono ?_
    rintro d ⟨idx, rfl, hidx⟩
    exact ⟨idx, hd, hidx⟩

/-- R31: the step of FBCORE, by its phase and its inputs. -/
theorem advance_respondsOnce (hc : s.cfg.wf = true) (h : s.advance = .next t) :
    RespondsOnce s t fun d => ∃ w later idx, s.requests = w :: later ∧ decodeReq w = .ok (.byteat idx) ∧
      idx < s.cfg.n ∧ d = s.fb.read idx := by
  rcases advance_next h with ⟨q, -, rfl⟩ | ⟨p, -, rfl⟩ | ⟨-, w, -, hw⟩ | ⟨-, -, w, later, hq, ha⟩ | ⟨-, -, -, rfl⟩
  · exact flushStep_respondsOnce s q _
  · exact .inl (commandStep_responses s p)
  · exact .inl (runCommand_responses hw)
  · exact (accept_respondsOnce hc ha).mono fun d ⟨idx, hidx⟩ => ⟨w, later, idx, hq, hidx⟩
  · exact .inl rfl

end

/-- Settles O10: a reset gives no response, and each kind of step of FBCORE gives at most one. -/
theorem aStepGivesAtMostOneLegalResponse : Obligations.AStepGivesAtMostOneLegalResponse := by
  intro s t h
  obtain ⟨hc, ⟨later, -, rfl⟩ | ⟨-, ha⟩⟩ := step_next h
  · exact .inl (State.resetCore_responses _)
  · exact advance_respondsOnce (s := s.sampled) hc ha

end Sys2Proof.Machine
end

section
/-! PROOFS. The assembler's words (R81): each is the word of a well-formed request, so each decodes; and the examples of
R83. -/

namespace Sys2Proof.Machine

section
variable {i : Instr}

/-- R81: an operand outside its range is an error. -/
theorem asmRange_eq_ok {j : Instr} (h : asmRange j = .ok (some i)) : i = j ∧ j.wf = true := by
  unfold asmRange at h
  split at h
  · next hj => cases h; exact ⟨rfl, hj⟩
  · cases h

theorem asmPixel_wf {x y on : List Char} (h : asmPixel x y on = .ok (some i)) : i.wf = true := by
  unfold asmPixel at h
  split at h
  · obtain ⟨rfl, hi⟩ := asmRange_eq_ok h; exact hi
  · cases h

/-- R81: whatever the mnemonic, the instruction of a line has its operands in range. -/
theorem asmInstr_wf {mnemonic : List Char} {operands : List (List Char)}
    (h : asmInstr mnemonic operands = .ok (some i)) : i.wf = true := by
  unfold asmInstr at h
  split at h
  · split at h
    exacts [asmPixel_wf h, nomatch h]
  split at h
  · split at h
    exacts [asmPixel_wf h, nomatch h]
  split at h
  · split at h
    exacts [asmPixel_wf h, nomatch h]
  split at h
  · split at h
    · split at h
      · obtain ⟨rfl, hi⟩ := asmRange_eq_ok h; exact hi
      · cases h
    · cases h
  split at h
  · split at h
    exacts [by cases h; rfl, nomatch h]
  split at h
  · split at h
    exacts [by cases h; rfl, nomatch h]
  split at h
  · split at h
    exacts [by cases h; rfl, nomatch h]
  · cases h

theorem asmLine_wf {line : List Char} (h : asmLine line = .ok (some i)) : i.wf = true := by
  simp only [asmLine] at h
  split at h
  · cases h
  · exact asmInstr_wf h

/-- A legal request word (R75, R81). -/
def IsRequestWord (w : ReqWord) : Prop := ∃ i, decodeReq w = .ok i ∧ i.wf = true

/-- The word of a well-formed instruction decodes to it. -/
theorem asmWords_legal {ws : List ReqWord} (hi : i.wf = true) (h : asmWords (some i) = .ok ws) :
    ∀ w ∈ ws, IsRequestWord w := by
  simp only [asmWords] at h
  split at h
  · next w he =>
    cases h
    have hd := decode_encode (c := Config.default) (by decide) hi
    rw [he] at hd
    exact List.forall_mem_singleton.2 ⟨i, hd, hi⟩
  · cases h

theorem asmLine_words_legal {line : List Char} {ws : List ReqWord} (h : (asmLine line).bind asmWords = .ok ws) :
    ∀ w ∈ ws, IsRequestWord w := by
  cases hl : asmLine line with
  | error e => rw [hl] at h; cases h
  | ok o =>
    rw [hl] at h
    cases o with
    | none => cases h; exact fun w hw => absurd hw List.not_mem_nil
    | some i => exact asmWords_legal (asmLine_wf hl) h

end

/-- Every line adds legal words only. -/
theorem asmLines_legal : ∀ {lines : List (List Char)} {ws : List ReqWord}, asmLines lines = .ok ws →
    ∀ w ∈ ws, IsRequestWord w
  | [], _, h => by cases h; exact fun w hw => absurd hw List.not_mem_nil
  | line :: rest, ws, h => by
    simp only [asmLines] at h
    split at h
    · cases h
    · cases h
    · next u us hu hus =>
      cases h
      exact List.forall_mem_append.2 ⟨asmLine_words_legal hu, asmLines_legal hus⟩

/-- Settles O20: an assembled text is its lines. -/
theorem assembledWordsAreLegalRequests : Obligations.AssembledWordsAreLegalRequests :=
  fun _ _ => asmLines_legal

/-- Settles O18: ten closed facts, by evaluation. -/
theorem encodingExamplesOfTheSpec : Obligations.EncodingExamplesOfTheSpec := by
  unfold Obligations.EncodingExamplesOfTheSpec
  decide +kernel

end Sys2Proof.Machine
end

section
/-! PROOFS. Numbers and operands of the assembler (R81, R82): a number is read as its value, a line as its mnemonic and
operands, and an operand out of range is an error. -/

namespace Sys2Proof.Machine

/-! ## Numbers -/

/-- One more digit at the end of a number. -/
theorem digitsFrom_append_digit {base : Nat} {digit : Char → Option Nat} {ch : Char} {d : Nat} (hd : digit ch = some d) :
    ∀ {l : List Char} {acc v : Nat}, digitsFrom base digit acc l = some v →
      digitsFrom base digit acc (l ++ [ch]) = some (v * base + d)
  | [], acc, v, h => by
    cases h
    simp [digitsFrom, hd]
  | c :: l, acc, v, h => by
    simp only [List.cons_append, digitsFrom] at h ⊢
    split at h
    · exact digitsFrom_append_digit hd h
    · cases h

/-- A number written in a base is read back as its value, when each digit is. -/
theorem digitsFrom_toDigits {base : Nat} {digit : Char → Option Nat} (hbase : 1 < base)
    (hd : ∀ d < base, digit d.digitChar = some d) (v : Nat) :
    digitsFrom base digit 0 (Nat.toDigits base v) = some v := by
  induction v using Nat.strongRecOn with
  | ind v ih =>
    by_cases hv : v < base
    · rw [Nat.toDigits_of_lt_base hv]
      simp [digitsFrom, hd v hv]
    · have hlt : v / base < v := Nat.div_lt_self (by omega) hbase
      have hmod : v % base < base := Nat.mod_lt _ (by omega)
      rw [Nat.toDigits_of_base_le hbase (Nat.not_lt.1 hv), digitsFrom_append_digit (hd _ hmod) (ih _ hlt),
        Nat.div_add_mod']

/-- A decimal number is not in the `0x` form, as `x` is no decimal digit. -/
theorem asmNat_decimal {l : List Char} {v : Nat} (hne : l ≠ []) (h : digitsFrom 10 decDigit 0 l = some v) :
    asmNat l = some v := by
  unfold asmNat
  split
  · exact absurd rfl hne
  · split
    · simp [digitsFrom, decDigit] at h
    · exact h

theorem asmNat_hex {l : List Char} (hne : l ≠ []) : asmNat ('0' :: 'x' :: l) = digitsFrom 16 hexDigit 0 l := by
  obtain ⟨d, ds, rfl⟩ := List.exists_cons_of_ne_nil hne
  rfl

theorem asmNat_toDigits_dec (v : Nat) : asmNat (Nat.toDigits 10 v) = some v :=
  asmNat_decimal Nat.toDigits_ne_nil (digitsFrom_toDigits (by decide) (by decide) v)

theorem asmNat_toDigits_hex (v : Nat) : asmNat ('0' :: 'x' :: Nat.toDigits 16 v) = some v :=
  (asmNat_hex Nat.toDigits_ne_nil).trans (digitsFrom_toDigits (by decide) (by decide) v)

/-- A natural number has no minus sign. -/
@[simp] theorem asmNat_minus (ds : List Char) : asmNat ('-' :: ds) = none := by
  simp [asmNat, digitsFrom, decDigit]

theorem asmInt_of_asmNat {ds : List Char} {v : Nat} (h : asmNat ds = some v) : asmInt ds = some (v : Int) := by
  unfold asmInt
  split
  · rw [asmNat_minus] at h; cases h
  · rw [h]; rfl

theorem asmInt_minus {ds : List Char} {v : Nat} (h : asmNat ds = some v) : asmInt ('-' :: ds) = some (-(v : Int)) := by
  rw [asmInt, h]; rfl

/-! ## Lines -/

/-- An operand as written: not empty, and without blanks, commas and the like. -/
def IsOperand (l : List Char) : Prop := l ≠ [] ∧ ∀ ch ∈ l, Plain ch

/-- The operands of a line: after each comma any number of blanks and the next operand. -/
def operandText (first : List Char) (rest : List (Nat × List Char)) : List Char :=
  first ++ rest.flatMap fun p => ',' :: (List.replicate p.1 ' ' ++ p.2)

@[simp] theorem operandText_nil (first : List Char) : operandText first [] = first := List.append_nil first

theorem operandText_cons (first : List Char) (k : Nat) (op : List Char) (rest : List (Nat × List Char)) :
    operandText first ((k, op) :: rest) = first ++ ',' :: (List.replicate k ' ' ++ operandText op rest) := by
  simp [operandText]

section
variable {first : List Char} {rest : List (Nat × List Char)}

theorem IsOperand.comma_not_mem (h : IsOperand first) (k : Nat) : ',' ∉ List.replicate k ' ' ++ first := by
  intro hm
  rcases List.mem_append.1 hm with hm | hm
  · exact absurd (List.eq_of_mem_replicate hm) (by decide)
  · obtain ⟨-, hcomma, -⟩ := h.2 _ hm
    exact hcomma rfl

theorem IsOperand.trim (h : IsOperand first) (k : Nat) : asmTrim (List.replicate k ' ' ++ first) = first := by
  rw [asmTrim_blanks, asmTrim_of_plain fun ch hm => (h.2 ch hm).1]

/-- The operands are read back, without the blanks before them. -/
theorem cutAt_operandText (hf : IsOperand first) (hr : ∀ p ∈ rest, IsOperand p.2) (k : Nat) :
    (cutAt ',' (List.replicate k ' ' ++ operandText first rest)).map asmTrim = first :: rest.map Prod.snd := by
  induction rest generalizing first k with
  | nil => rw [operandText_nil, cutAt_none (hf.comma_not_mem k), List.map_singleton, hf.trim, List.map_nil]
  | cons p rest ih =>
    obtain ⟨hp, hrest⟩ := List.forall_mem_cons.1 hr
    rw [operandText_cons, ← List.append_assoc, cutAt_append _ (hf.comma_not_mem k), List.map_cons, hf.trim,
      ih hp hrest, List.map_cons]

/-- No operand ends the line or opens a comment. -/
theorem mem_operandText (hf : IsOperand first) (hr : ∀ p ∈ rest, IsOperand p.2) {ch : Char}
    (h : ch ∈ operandText first rest) : ch ≠ ';' ∧ ch ≠ '\n' := by
  simp only [operandText, List.mem_append, List.mem_flatMap, List.mem_cons] at h
  obtain h | ⟨p, hp, rfl | h | h⟩ := h
  · obtain ⟨-, -, hends⟩ := hf.2 ch h
    exact hends
  · decide
  · rw [List.eq_of_mem_replicate h]; decide
  · obtain ⟨-, -, hends⟩ := (hr p hp).2 ch h
    exact hends

/-- The last character of a line's operands is no blank. -/
theorem operandText_last (hf : IsOperand first) (hr : ∀ p ∈ rest, IsOperand p.2) :
    ∃ b c, operandText first rest = b ++ [c] ∧ asmBlank c = false := by
  induction rest generalizing first with
  | nil =>
    obtain ⟨hne, hplain⟩ := hf
    refine ⟨first.dropLast, first.getLast hne, ?_, (hplain _ (List.getLast_mem hne)).1⟩
    rw [operandText_nil, List.dropLast_append_getLast hne]
  | cons p rest ih =>
    obtain ⟨hp, hrest⟩ := List.forall_mem_cons.1 hr
    obtain ⟨b, c, hb, hc⟩ := ih hp hrest
    exact ⟨first ++ ',' :: (List.replicate p.1 ' ' ++ b), c, by rw [operandText_cons, hb]; simp, hc⟩

/-- R81: a line of a mnemonic and operands is assembled as what the mnemonic makes of the operands. -/
theorem assemble_operands {name mnemonic : List Char} (hn : name.map Char.toUpper = mnemonic) (hne : mnemonic ≠ [])
    (hm : ∀ ch ∈ mnemonic, 65 ≤ ch.toNat) (hf : IsOperand first) (hr : ∀ p ∈ rest, IsOperand p.2) :
    assemble (name ++ ' ' :: operandText first rest) =
      (asmInstr mnemonic (first :: rest.map Prod.snd)).bind asmWords := by
  have hname : ∀ ch ∈ name, Plain ch := fun ch hch => plain_of_toUpper (hm _ (hn ▸ List.mem_map_of_mem hch))
  have hnl : '\n' ∉ name ++ ' ' :: operandText first rest := by
    intro hmem
    rcases List.mem_append.1 hmem with h | h
    · obtain ⟨-, -, -, hne⟩ := hname _ h
      exact hne rfl
    · rcases List.mem_cons.1 h with h | h
      · exact absurd h (by decide)
      · exact (mem_operandText hf hr h).2 rfl
  obtain ⟨b, c, hend, hc⟩ := operandText_last hf hr
  have hne' : name ≠ [] := by rintro rfl; exact hne hn.symm
  rw [assemble_line hnl, asmLine_mnemonic hname hne' (fun ch h => (mem_operandText hf hr h).1) hend hc, hn]
  exact congrArg (fun ops => (asmInstr mnemonic ops).bind asmWords) (cutAt_operandText hf hr 1)

end

/-! ## The instructions with operands -/

theorem asmInstr_setpx (x y on : List Char) : asmInstr ['S', 'E', 'T', 'P', 'X'] [x, y, on] = asmPixel x y on := rfl

theorem asmInstr_pxon (x y : List Char) : asmInstr ['P', 'X', 'O', 'N'] [x, y] = asmPixel x y ['1'] := rfl

theorem asmInstr_pxoff (x y : List Char) : asmInstr ['P', 'X', 'O', 'F', 'F'] [x, y] = asmPixel x y ['0'] := rfl

theorem asmInstr_byteat {ds : List Char} {v : Nat} (h : asmNat ds = some v) :
    asmInstr ['B', 'Y', 'T', 'E', 'A', 'T'] [ds] = asmRange (.byteat v) := by
  simp [asmInstr, h]

/-- An index is no negative number (log entry 19). -/
theorem asmInstr_byteat_minus (ds : List Char) :
    asmInstr ['B', 'Y', 'T', 'E', 'A', 'T'] ['-' :: ds] = .error .badOperands := by
  simp [asmInstr]

theorem asmOn_operand {os : List Char} {on : Bool} (h : asmOn os = some on) : IsOperand os := by
  unfold asmOn at h
  split at h
  · exact ⟨List.cons_ne_nil _ _, List.forall_mem_singleton.2 (plain_of_toNat (by decide) (by decide))⟩
  · exact ⟨List.cons_ne_nil _ _, List.forall_mem_singleton.2 (plain_of_toNat (by decide) (by decide))⟩
  · cases h

/-- The pixel value has two spellings only (log entry 19). -/
theorem asmOn_eq_none {os : List Char} (h0 : os ≠ ['0']) (h1 : os ≠ ['1']) : asmOn os = none := by
  unfold asmOn
  split
  · exact absurd rfl h0
  · exact absurd rfl h1
  · rfl

/-- R81: the word of SETPX for an operand `on`, or the error of a coordinate out of range. -/
def pixelResult (x y : Int) (on : BitVec 1) : Except AsmError (List ReqWord) :=
  if -32768 ≤ x ∧ x ≤ 32767 ∧ -32768 ≤ y ∧ y ≤ 32767 then
    .ok [0x01#8 ++ 0#7 ++ on ++ 0#16 ++ BitVec.ofInt 16 y ++ BitVec.ofInt 16 x]
  else .error .outOfRange

theorem asmPixel_not_on {xs ys os : List Char} (ho : asmOn os = none) : asmPixel xs ys os = .error .badOperands := by
  simp [asmPixel, ho]

section
variable {name xs ys : List Char} {x y : Int} (hx : asmInt xs = some x) (hy : asmInt ys = some y)
include hx hy

/-- R81: the operands of a pixel line with `on` as `os` writes it. -/
theorem asmPixel_result {os : List Char} {on : Bool} (ho : asmOn os = some on) :
    (asmPixel xs ys os).bind asmWords = pixelResult x y (BitVec.ofBool on) := by
  simp only [asmPixel, hx, hy, ho]
  exact asmRange_setpx x y on

/-- R81: a SETPX line, whatever is written for `on`. -/
theorem assemble_setpx (hn : name.map Char.toUpper = ['S', 'E', 'T', 'P', 'X']) (j k : Nat) {os : List Char}
    (ho : IsOperand os) :
    assemble (name ++ ' ' :: operandText xs [(j, ys), (k, os)]) = (asmPixel xs ys os).bind asmWords := by
  have hops : ∀ p ∈ [(j, ys), (k, os)], IsOperand p.2 :=
    List.forall_mem_cons.2 ⟨asmInt_plain hy, List.forall_mem_singleton.2 ho⟩
  exact assemble_operands hn (by decide) (by simp) (asmInt_plain hx) hops

/-- R82: a line of PXON or PXOFF is that of SETPX with its `on`. -/
theorem assemble_pseudo {mnemonic os : List Char} (hn : name.map Char.toUpper = mnemonic) (hne : mnemonic ≠ [])
    (hm : ∀ ch ∈ mnemonic, 65 ≤ ch.toNat) (hpixel : asmInstr mnemonic [xs, ys] = asmPixel xs ys os) (j : Nat) :
    assemble (name ++ ' ' :: operandText xs [(j, ys)]) = (asmPixel xs ys os).bind asmWords := by
  have hops : ∀ p ∈ [(j, ys)], IsOperand p.2 := List.forall_mem_singleton.2 (asmInt_plain hy)
  exact (assemble_operands hn hne hm (asmInt_plain hx) hops).trans (congrArg (·.bind asmWords) hpixel)

end

/-- R74, R81: a BYTEAT line. -/
theorem assemble_byteat {name ds : List Char} {v : Nat} (hn : name.map Char.toUpper = ['B', 'Y', 'T', 'E', 'A', 'T'])
    (h : asmNat ds = some v) : assemble (name ++ ' ' :: ds) =
      if v < 2 ^ 32 then .ok [0x03#8 ++ 0#24 ++ BitVec.ofNat 32 v] else .error .outOfRange := by
  have hline := assemble_operands (rest := []) hn (by decide) (by simp) (asmNat_plain h) (by simp)
  rw [operandText_nil] at hline
  rw [hline, List.map_nil, asmInstr_byteat h, asmRange_byteat, reqWord_byteat]

theorem assemble_byteat_minus {name ds : List Char} {v : Nat}
    (hn : name.map Char.toUpper = ['B', 'Y', 'T', 'E', 'A', 'T']) (h : asmNat ds = some v) :
    assemble (name ++ ' ' :: '-' :: ds) = .error .badOperands := by
  have hline := assemble_operands (rest := []) hn (by decide) (by simp) (asmInt_plain (asmInt_minus h)) (by simp)
  rw [operandText_nil] at hline
  rw [hline, List.map_nil, asmInstr_byteat_minus]
  rfl

/-- Settles O60: a line is read as its mnemonic and its operands, and what the mnemonic makes of them is the word of R81 or
the error. -/
theorem assemblerRefusesOperandsOutOfRange : Obligations.AssemblerRefusesOperandsOutOfRange := by
  refine ⟨fun v => ⟨asmNat_toDigits_dec v, asmNat_toDigits_hex v⟩, fun ds v h => ⟨asmInt_of_asmNat h, asmInt_minus h⟩,
    fun name xs ys x y j k hx hy => ?_, fun name ds v hn h => ⟨assemble_byteat hn h, assemble_byteat_minus hn h⟩⟩
  have hpixel : name ++ (' ' :: xs ++ [','] ++ List.replicate j ' ' ++ ys) =
      name ++ ' ' :: operandText xs [(j, ys)] := by
    simp [operandText]
  have hsetpx : ∀ os, name ++ (' ' :: xs ++ [','] ++ List.replicate j ' ' ++ ys) ++
      ([','] ++ List.replicate k ' ') ++ os = name ++ ' ' :: operandText xs [(j, ys), (k, os)] := by
    simp [operandText]
  intro pixel sep result
  refine ⟨fun hn => ⟨?_, ?_, fun os hne hplain h0 h1 => ?_⟩, fun hn => ?_, fun hn => ?_⟩
  · have hon : asmOn ['1'] = some true := rfl
    rw [hsetpx, assemble_setpx hx hy hn j k (asmOn_operand hon), asmPixel_result hx hy hon]
    rfl
  · have hon : asmOn ['0'] = some false := rfl
    rw [hsetpx, assemble_setpx hx hy hn j k (asmOn_operand hon), asmPixel_result hx hy hon]
    rfl
  · rw [hsetpx, assemble_setpx hx hy hn j k ⟨hne, hplain⟩, asmPixel_not_on (asmOn_eq_none h0 h1)]
    rfl
  · rw [hpixel, assemble_pseudo hx hy hn (by decide) (by simp) (asmInstr_pxon xs ys),
      asmPixel_result hx hy (on := true) rfl]
    rfl
  · rw [hpixel, assemble_pseudo hx hy hn (by decide) (by simp) (asmInstr_pxoff xs ys),
      asmPixel_result hx hy (on := false) rfl]
    rfl

end Sys2Proof.Machine
end

section
/-! PROOFS. The places of pixels (R51 to R54), and the bits of FB after a pixel is set or cleared (R100, R103 to
R105). -/

namespace Sys2Proof.Machine

/-- R51, R53: pixel `(x, y)` is in bounds, and its place is bit `b` of byte `i`. -/
abbrev PixelAt (c : Config) (x y : Int) (i b : Nat) : Prop :=
  inb c x y = true ∧ pixelIndex c x y = i ∧ pixelBit y = b

/-- R100: the FB that a SETPX leaves. -/
def Memory.setPixel (c : Config) (m : Memory) (x y : Int) (on : Bool) : Memory :=
  if inb c x y = true then m.write (pixelIndex c x y) (putBit (m.read (pixelIndex c x y)) (pixelBit y) on) else m

/-- Canonical memories that agree in every bit are equal. -/
theorem Memory.ext_bits {m m' : Memory} (h : m.wf = true) (h' : m'.wf = true)
    (hb : ∀ i, ∀ b < 8, (m.read i).getLsbD b = (m'.read i).getLsbD b) : m = m' :=
  Memory.ext h h' fun i => BitVec.eq_of_getLsbD_eq (hb i)

/-- Settles O29: `(i, b)` are the quotients and remainders of a place, the column below `WIDTH` and the bit below 8. -/
theorem everyBitIsExactlyOnePixel : Obligations.EveryBitIsExactlyOnePixel := by
  intro c i b hc hi hb x y
  have hw := Config.wf_width hc
  have hh := Config.wf_height hc
  have hn := Config.wf_n hc
  simp only [inb_iff, pixelIndex, pixelBit, hw]
  constructor
  · rintro ⟨⟨hx0, hx, hy0, -⟩, hidx, hbit⟩
    constructor <;> omega
  · rintro ⟨rfl, rfl⟩
    refine ⟨⟨?_, ?_, ?_, ?_⟩, ?_, ?_⟩ <;> omega

section
variable {c : Config} {m : Memory}

/-- R105: two pixels of one place are one pixel. -/
theorem PixelAt.unique (hc : c.wf = true) {x y x' y' : Int} {i b : Nat} (h : PixelAt c x y i b)
    (h' : PixelAt c x' y' i b) : (x, y) = (x', y') := by
  have hi : i < c.n := h.2.1 ▸ pixelIndex_lt hc h.1
  have hb : b < 8 := h.2.2 ▸ pixelBit_lt y
  obtain ⟨hx, hy⟩ := (everyBitIsExactlyOnePixel c i b hc hi hb x y).1 h
  obtain ⟨hx', hy'⟩ := (everyBitIsExactlyOnePixel c i b hc hi hb x' y').1 h'
  rw [hx, hy, hx', hy']

theorem Memory.wf_setPixel (h : m.wf = true) (c : Config) (x y : Int) (on : Bool) :
    (m.setPixel c x y on).wf = true := by
  unfold Memory.setPixel
  split
  · exact Memory.wf_write h _ _
  · exact h

/-- R103, R104: the bit at the pixel's place is `on`, and every other bit is as before; a pixel out of bounds has no
place. -/
theorem Memory.getLsbD_setPixel (h : m.wf = true) (c : Config) (x y : Int) (on : Bool) (i : Nat) {b : Nat}
    (hb : b < 8) :
    ((m.setPixel c x y on).read i).getLsbD b = if PixelAt c x y i b then on else (m.read i).getLsbD b := by
  unfold Memory.setPixel
  by_cases hin : inb c x y = true
  · rw [if_pos hin, Memory.read_write h]
    by_cases hi : i = pixelIndex c x y
    · rw [if_pos hi, getLsbD_putBit _ (pixelBit_lt y) on hb, hi]
      simp [PixelAt, hin, eq_comm]
    · simp [PixelAt, hi, Ne.symm hi]
  · simp [PixelAt, hin]

/-- R100: a bit that is already as asked leaves the memory as it is. -/
theorem Memory.setPixel_same (h : m.wf = true) {x y : Int} {on : Bool}
    (hon : (m.read (pixelIndex c x y)).getLsbD (pixelBit y) = on) : m.setPixel c x y on = m := by
  refine Memory.ext_bits (Memory.wf_setPixel h c x y on) h fun i b hb => ?_
  rw [Memory.getLsbD_setPixel h c x y on i hb]
  split
  · rename_i hat
    obtain ⟨-, rfl, rfl⟩ := hat
    exact hon.symm
  · rfl

/-- R105: distinct pixels have distinct places, so no bit is written twice. -/
theorem Memory.setPixel_comm (hc : c.wf = true) (h : m.wf = true) {x y x' y' : Int} (hne : (x, y) ≠ (x', y'))
    (on on' : Bool) : (m.setPixel c x y on).setPixel c x' y' on' = (m.setPixel c x' y' on').setPixel c x y on := by
  have h1 := Memory.wf_setPixel h c x y on
  have h2 := Memory.wf_setPixel h c x' y' on'
  refine Memory.ext_bits (Memory.wf_setPixel h1 c x' y' on') (Memory.wf_setPixel h2 c x y on) fun i b hb => ?_
  rw [Memory.getLsbD_setPixel h1 c x' y' on' i hb, Memory.getLsbD_setPixel h c x y on i hb,
    Memory.getLsbD_setPixel h2 c x y on i hb, Memory.getLsbD_setPixel h c x' y' on' i hb]
  by_cases hat : PixelAt c x y i b
  · have hat' : ¬ PixelAt c x' y' i b := fun hat' => hne (hat.unique hc hat')
    rw [if_neg hat', if_pos hat, if_pos hat]
  · rw [if_neg hat, if_neg hat]

end

end Sys2Proof.Machine
end

section
/-! PROOFS. SETPX, CLEAR and BYTEAT (R100 to R105), as instructions and through the request port. -/

namespace Sys2Proof.Machine

/-- R100: the state that a SETPX leaves. -/
def State.setPixel (s : State) (x y : Int) (on : Bool) : State :=
  { s with fb := s.fb.setPixel s.cfg x y on }.respond .ok 0x00

section
variable {s t : State}

@[simp] theorem State.setPixel_fb (s : State) (x y : Int) (on : Bool) :
    (s.setPixel x y on).fb = s.fb.setPixel s.cfg x y on := rfl

/-- R105: the two responses are OK in either order, and so the states are equal when their FBs are. -/
theorem State.setPixel_comm (hc : s.cfg.wf = true) (hfb : s.fb.wf = true) {x y x' y' : Int} (hne : (x, y) ≠ (x', y'))
    (on on' : Bool) : (s.setPixel x y on).setPixel x' y' on' = (s.setPixel x' y' on').setPixel x y on :=
  congrArg (fun m => ({ s with fb := m }.respond .ok 0x00).respond .ok 0x00)
    (Memory.setPixel_comm hc hfb hne on on')

/-- SETPX in one equation, in bounds or not. -/
theorem exec_setpx_eq (hc : s.cfg.wf = true) (x y : Int) (on : Bool) :
    exec (.setpx x y on) s = .next (s.setPixel x y on) := by
  rw [exec_setpx, State.setPixel, Memory.setPixel]
  cases hb : inb s.cfg x y with
  | true => exact execSetpx_inb hc hb on
  | false => exact execSetpx_oob hb on

/-- R30, R31 (1): a step of a run that accepts a request. -/
theorem run_request (hc : s.cfg.wf = true) (hr : ∀ r ∈ s.resetLine, r = false) (hs : s.seq = .idle)
    (hslot : s.command = none) {w : ReqWord} {later : List ReqWord} (hq : s.requests = w :: later) {i : Instr}
    (hd : decodeReq w = .ok i) (he : exec i (s.sampled.takeRequest later) = .next t) (k : Nat) :
    run (k + 1) s = run k t := by
  have hstep : step s = exec i (s.sampled.takeRequest later) :=
    stepRunsThePresentedRequest s w later i hc (noReset_of_forall hr) hs hslot hq hd
  exact run_succ (hstep.trans he) (acceptsIllegal_of_legal hq hd) k

end

/-- Settles O25: the bits of FB after the SETPX, at a pixel that is in bounds. -/
theorem setpxWritesOneBitOfFb : Obligations.SetpxWritesOneBitOfFb := by
  intro s x y on hc hfb hx0 hx hy0 hy
  have hin : inb s.cfg x y = true := inb_iff.2 ⟨hx0, hx, hy0, hy⟩
  refine ⟨_, exec_setpx_eq hc x y on, fun i b hb => ?_, rfl⟩
  rw [State.setPixel_fb, Memory.getLsbD_setPixel hfb s.cfg x y on i hb]
  simp only [PixelAt, hin, true_and, pixelIndex, pixelBit, eq_comm]

/-- Settles O26: out of bounds SETPX only answers. -/
theorem setpxOutOfBoundsChangesNothing : Obligations.SetpxOutOfBoundsChangesNothing := by
  intro s x y on hout
  have hin : inb s.cfg x y = false := Bool.eq_false_iff.2 fun hin => hout (inb_iff.1 hin)
  exact execSetpx_oob hin on

/-- Settles O27: the memory with a bit written that it holds already is that memory. -/
theorem setpxOfThePresentValueLeavesFb : Obligations.SetpxOfThePresentValueLeavesFb := by
  intro s x y on hc hfb _ hon
  rw [exec_setpx_eq hc, State.setPixel, Memory.setPixel_same hfb hon]
  rfl

/-- Settles O28: each request is one `State.setPixel`, and those commute. -/
theorem setpxOnDistinctPixelsCommute : Obligations.SetpxOnDistinctPixelsCommute := by
  intro s x y x' y' on on' hc hfb hne
  refine ⟨_, _, _, exec_setpx_eq hc x y on, exec_setpx_eq (s := s.setPixel x y on) hc x' y' on',
    exec_setpx_eq hc x' y' on', ?_⟩
  rw [State.setPixel_comm hc hfb hne]
  exact exec_setpx_eq (s := s.setPixel x' y' on') hc x y on

/-- Settles O30: the memory of zeros reads 0x00 at every index. -/
theorem clearZeroesEveryByteOfFb : Obligations.ClearZeroesEveryByteOfFb :=
  fun _ => ⟨_, exec_clear _, Memory.read_zeros, rfl⟩

/-- Settles O31: in IDLE the error leaves the phase as it is. -/
theorem byteatReadsFbOrAnswersOutOfRange : Obligations.ByteatReadsFbOrAnswersOutOfRange := by
  refine fun s idx hs => ⟨fun hlt => execByteat_lt hlt, fun hge => ?_⟩
  calc exec (.byteat idx) s = .next (s.raise .outOfRange) := execByteat_ge hge
    _ = _ := by rw [hs]; rfl

/-- Settles O32: the first step sets the bit, the second reads its byte. -/
theorem pixelReadsBackThroughTheRequestPort : Obligations.PixelReadsBackThroughTheRequestPort := by
  intro s x y on w w' later hinv hs hr hin hq hd hd'
  let s₀ := s.sampled.takeRequest (w' :: later)
  let s₁ := s₀.setPixel x y on
  have hfirst : run 2 s = run 1 s₁ :=
    run_request hinv.cfg hr hs hinv.slot hq hd (exec_setpx_eq (s := s₀) hinv.cfg x y on) 1
  have hr₁ : ∀ r ∈ s₁.resetLine, r = false := fun r hm => hr r (List.mem_of_mem_tail hm)
  have hsecond : run 1 s₁ = .next ((s₁.sampled.takeRequest later).respond .ok (s₁.fb.read (pixelIndex s.cfg x y))) :=
    run_request (s := s₁) hinv.cfg hr₁ hs hinv.slot rfl hd'
      (execByteat_lt (s := s₁.sampled.takeRequest later) (pixelIndex_lt hinv.cfg hin)) 0
  have hbit : (s₁.fb.read (pixelIndex s.cfg x y)).getLsbD (pixelBit y) = on :=
    (Memory.getLsbD_setPixel hinv.fbForm s.cfg x y on _ (pixelBit_lt y)).trans (if_pos ⟨hin, rfl, rfl⟩)
  refine ⟨_, _, hfirst.trans hsecond, rfl, rspStatus_rspWord _ _, ?_, rfl, rfl, rfl⟩
  rw [rspData_rspWord]
  exact hbit

end Sys2Proof.Machine
end

section
/-! PROOFS. The acceptance of a FLUSH and of a FLUSHALL (R132 to R138, R145, R146): the latches and the window are read
off `Comparison`, the facts of a FLUSH that finds a difference. -/

namespace Sys2Proof.Machine

/-- R135: the corner coordinates of two indices. -/
def cornerWindow (c : Config) (first last : Nat) : Window where
  sc := column c first
  ec := column c last
  sp := page c first
  ep := page c last

namespace Comparison
variable {s : State} {q : Latches}

theorem between (h : Comparison s q) {i : Nat} (hi : s.differsAt i) : q.first ≤ i ∧ i ≤ q.lastx - 1 := by
  have hlast := h.lastGreatest i hi
  exact ⟨h.firstLeast i hi, by omega⟩

/-- R133: the two ends meet exactly when there is one difference. -/
theorem single_iff (h : Comparison s q) :
    q.first + 1 = q.lastx ↔ ∀ i j, s.differsAt i → s.differsAt j → i = j := by
  constructor
  · intro hone i j hi hj
    have hi' := h.between hi
    have hj' := h.between hj
    omega
  · intro hall
    have hends := hall _ _ h.firstDiffers h.lastDiffers
    have hpos := h.positive
    omega

/-- R136: the window under CORNERS. -/
theorem win_corners (h : Comparison s q) (hp : s.cfg.windowPolicy = .corners) :
    q.win = cornerWindow s.cfg q.first (q.lastx - 1) := by
  obtain ⟨hsc, hec⟩ := h.corners hp
  rw [cornerWindow, ← hsc, ← hec, ← h.startPage, ← h.endPage]

end Comparison

/-- Settles O33: equal bytes leave no difference, and the answer is that of R134. -/
theorem flushWithoutDifferenceIssuesNothing : Obligations.FlushWithoutDifferenceIssuesNothing := by
  intro s heq
  have hnone : ∀ i, ¬ s.differsAt i := fun i hi => hi.2 (heq i hi.1)
  rw [exec_flush, execFlush_unchanged hnone, State.flushUnchanged]
  cases s.cfg.nodiffClears <;> rfl

/-- Settles O34: the ends of the difference set are those of the comparison. -/
theorem flushLatchesTheFirstAndLastDifference : Obligations.FlushLatchesTheFirstAndLastDifference := by
  rintro s hc ⟨k, hk⟩
  obtain ⟨q, hq, h⟩ := execFlush_changed hc hk
  have hlastx : q.lastx = q.lastx - 1 + 1 := (Nat.sub_add_cancel h.positive).symm
  exact ⟨q, hq, h.start, h.firstDiffers, h.firstLeast,
    ⟨q.lastx - 1, hlastx, h.lastDiffers, fun i hi => (h.between hi).2⟩, h.ordered, h.single_iff⟩

/-- Settles O35: the two differences are the ends of the comparison. -/
theorem flushWindowUnderCorners : Obligations.FlushWindowUnderCorners := by
  rintro s hc hp ⟨k, hk⟩
  obtain ⟨q, hq, h⟩ := execFlush_changed hc hk
  exact ⟨q, hq, q.first, q.lastx - 1, h.firstDiffers, h.lastDiffers, fun _ => h.between, h.win_corners hp⟩

/-- Settles O36: the columns are attained bounds, the pages those of the ends. -/
theorem flushWindowUnderBounding : Obligations.FlushWindowUnderBounding := by
  rintro s hc hp ⟨k, hk⟩
  obtain ⟨q, hq, h⟩ := execFlush_changed hc hk
  obtain ⟨hsc, hleast⟩ := h.boundingLeast hp
  obtain ⟨hec, hgreatest⟩ := h.boundingGreatest hp
  exact ⟨q, hq, hsc, hec, fun i hi => ⟨hleast i hi, hgreatest i hi⟩,
    q.first, q.lastx - 1, h.firstDiffers, h.lastDiffers, fun _ => h.between, h.startPage, h.endPage⟩

/-- Settles O37: pages are monotone, so those of the two ends bound the others. -/
theorem flushPagesAreTheBoundsOfTheDifferences : Obligations.FlushPagesAreTheBoundsOfTheDifferences := by
  rintro s hc ⟨k, hk⟩
  obtain ⟨q, hq, h⟩ := execFlush_changed hc hk
  exact ⟨fun i j => page_mono (c := s.cfg), q, hq, ⟨_, h.firstDiffers, h.startPage.symm⟩,
    ⟨_, h.lastDiffers, h.endPage.symm⟩, fun _ => h.page_bounds, h.pages, h.bounding_columns⟩

/-- R146: the length of the list of a FLUSHALL. -/
theorem length_fullLatches_txlist (s : State) : (fullLatches s).txlist.length = 6 + s.cfg.n := by
  rw [fullLatches, List.length_append, length_windowCmds, length_dataTxs, List.length_range]

/-- Settles O39: the latches of a FLUSHALL are `fullLatches`. -/
theorem flushallListsTheWholeBuffer : Obligations.FlushallListsTheWholeBuffer :=
  fun s hc => ⟨fullLatches s, execFlushall_eq hc, rfl, rfl, rfl, rfl, rfl, length_fullLatches_txlist s⟩

end Sys2Proof.Machine
end

section
/-! PROOFS. The stream of a FLUSH (R140, R147 to R152): under either policy its indices are those of the window. -/

namespace Sys2Proof.Machine

/-- R151: under BOUNDING the stream has an index for each column and page of the window. -/
theorem length_streamList_bounding {c : Config} (hp : c.windowPolicy = .bounding) (first lastx : Nat) (w : Window) :
    (streamList c first lastx w).length = (w.ec + 1 - w.sc) * (w.ep + 1 - w.sp) := by
  simp [streamList, hp, List.length_flatMap, Nat.mul_comm]

namespace Comparison
variable {s : State} {q : Latches} {i : Nat}

/-- R148: under CORNERS the window begins at the first difference and ends at the last. -/
theorem bounds_of_inWindow (h : Comparison s q) (hc : s.cfg.wf = true) (hp : s.cfg.windowPolicy = .corners)
    (hi : inWindow s.cfg q.win i = true) : q.first ≤ i ∧ i < q.lastx := by
  have hpos := h.positive
  rw [inWindow_iff, h.win_corners hp] at hi
  simp only [cornerWindow, column_eq hc, page_eq hc] at hi
  omega

/-- R140: the stream of a FLUSH is the window, under either policy. -/
theorem mem_stream (h : Comparison s q) (hc : s.cfg.wf = true) :
    i ∈ streamList s.cfg q.first q.lastx q.win ↔ inWindow s.cfg q.win i = true := by
  cases hp : s.cfg.windowPolicy with
  | corners =>
    rw [mem_streamList_corners hp, ← and_assoc, and_iff_right_iff_imp]
    exact h.bounds_of_inWindow hc hp
  | bounding => exact mem_streamList_bounding hc hp (h.columns hc).2

theorem stream_pairwise (h : Comparison s q) (hc : s.cfg.wf = true) :
    (streamList s.cfg q.first q.lastx q.win).Pairwise (· < ·) :=
  streamList_pairwise hc (h.columns hc).2

/-- The same indices are streamed as those that BOUNDING takes from this window, so there are as many. -/
theorem length_stream (h : Comparison s q) (hc : s.cfg.wf = true) (hcol : q.win.sc ≤ q.win.ec) :
    (streamList s.cfg q.first q.lastx q.win).length = (q.win.ec - q.win.sc + 1) * (q.win.ep - q.win.sp + 1) := by
  let c : Config := { s.cfg with windowPolicy := .bounding }
  have hec : q.win.ec ≤ c.maxCol := (h.columns hc).2
  have hlist : streamList s.cfg q.first q.lastx q.win = streamList c q.first q.lastx q.win :=
    eq_of_pairwise_of_mem (h.stream_pairwise hc) (streamList_pairwise (c := c) hc hec) fun i =>
      (h.mem_stream hc).trans (mem_streamList_bounding (c := c) hc rfl hec).symm
  rw [hlist, length_streamList_bounding (c := c) rfl, Nat.sub_add_comm hcol, Nat.sub_add_comm h.pages]

/-- R149: the page of a difference is in the window, so its column decides whether it is streamed. -/
theorem mem_stream_of_differs (h : Comparison s q) (hc : s.cfg.wf = true) (hi : s.differsAt i) :
    i ∈ streamList s.cfg q.first q.lastx q.win ↔ q.win.sc ≤ column s.cfg i ∧ column s.cfg i ≤ q.win.ec := by
  have hpage := h.page_bounds hi
  rw [h.mem_stream hc, inWindow_iff, and_iff_left hpage]

/-- R147: within one page the columns are in the order of the indices. -/
theorem columns_of_onePage (h : Comparison s q) (hc : s.cfg.wf = true) (hone : q.win.sp = q.win.ep)
    (hi : s.differsAt i) :
    column s.cfg q.first ≤ column s.cfg i ∧ column s.cfg i ≤ column s.cfg (q.lastx - 1) := by
  have hpage := h.page_bounds hi
  have hidx := h.between hi
  rw [h.startPage, h.endPage] at hone hpage
  simp only [column_eq hc, page_eq hc] at hone hpage ⊢
  omega

/-- R147: within one page the bounds of the columns are the columns of the two ends. -/
theorem win_onePage (h : Comparison s q) (hc : s.cfg.wf = true) (hone : q.win.sp = q.win.ep) :
    q.win = cornerWindow s.cfg q.first (q.lastx - 1) := by
  cases hp : s.cfg.windowPolicy with
  | corners => exact h.win_corners hp
  | bounding =>
    obtain ⟨⟨i, hi, hsc⟩, hleast⟩ := h.boundingLeast hp
    obtain ⟨⟨j, hj, hec⟩, hgreatest⟩ := h.boundingGreatest hp
    have hsc' : column s.cfg q.first = q.win.sc :=
      Nat.le_antisymm (hsc ▸ (h.columns_of_onePage hc hone hi).1) (hleast _ h.firstDiffers)
    have hec' : column s.cfg (q.lastx - 1) = q.win.ec :=
      Nat.le_antisymm (hgreatest _ h.lastDiffers) (hec ▸ (h.columns_of_onePage hc hone hj).2)
    rw [cornerWindow, hsc', hec', ← h.startPage, ← h.endPage]

/-- R147: within one page the window is every index from the first to the last difference. -/
theorem stream_onePage (h : Comparison s q) (hc : s.cfg.wf = true) (hone : q.win.sp = q.win.ep) :
    streamList s.cfg q.first q.lastx q.win = List.range' q.first (q.lastx - q.first) := by
  refine eq_of_pairwise_of_mem (h.stream_pairwise hc) List.pairwise_lt_range' fun i => ?_
  have hord := h.ordered
  have hpage : page s.cfg q.first = page s.cfg (q.lastx - 1) := h.startPage.symm.trans (hone.trans h.endPage)
  rw [h.mem_stream hc, h.win_onePage hc hone, inWindow_iff, List.mem_range'_1]
  simp only [cornerWindow, column_eq hc, page_eq hc] at hpage ⊢
  omega

end Comparison

/-- R147, R152: the latches of a FLUSH whose differences, from `first` to `last`, lie in one page. -/
def State.onePageLatches (s : State) (first last : Nat) : Latches where
  txlist := windowCmds s.cfg (cornerWindow s.cfg first last) ++ dataTxs s.fb (List.range' first (last + 1 - first))
  txpos := 0
  first := first
  lastx := last + 1
  win := cornerWindow s.cfg first last

/-- R147: within one page a FLUSH latches the same under either policy. -/
theorem execFlush_onePage {s : State} (hc : s.cfg.wf = true) {first last : Nat} (hf : s.differsAt first)
    (hl : s.differsAt last) (hb : ∀ i, s.differsAt i → first ≤ i ∧ i ≤ last)
    (hone : page s.cfg first = page s.cfg last) :
    execFlush s = .next { s with seq := .flushing (s.onePageLatches first last) } := by
  obtain ⟨q, hq, h⟩ := execFlush_changed hc hf
  obtain rfl : q.first = first := Nat.le_antisymm (h.firstLeast _ hf) (hb _ h.firstDiffers).1
  obtain rfl : q.lastx - 1 = last := Nat.le_antisymm (hb _ h.lastDiffers).2 (h.between hl).2
  have hpage : q.win.sp = q.win.ep := by rw [h.startPage, h.endPage, hone]
  have hlatches : q = s.onePageLatches q.first (q.lastx - 1) := by
    rw [State.onePageLatches, Nat.sub_add_cancel h.positive, ← h.win_onePage hc hpage, ← h.stream_onePage hc hpage,
      ← h.list, ← h.start]
  rw [hq, ← hlatches]

/-- Settles O38: the stream is the window, which under CORNERS lies between the first and the last difference. -/
theorem flushTransactionListIsWindowThenStream : Obligations.FlushTransactionListIsWindowThenStream := by
  rintro s hc ⟨k, hk⟩
  obtain ⟨q, hq, h⟩ := execFlush_changed hc hk
  refine ⟨q, _, hq, h.list, h.stream_pairwise hc, fun i => ?_⟩
  rw [h.mem_stream hc]
  constructor
  · exact fun hi => ⟨fun hp => h.bounds_of_inWindow hc hp hi, inWindow_iff.1 hi⟩
  · exact fun hi => inWindow_iff.2 hi.2

/-- Settles O41: the latches within one page do not depend on the policy. -/
theorem policiesAgreeWithinOnePage : Obligations.PoliciesAgreeWithinOnePage := by
  rintro s hc ⟨k, hk⟩ hall
  obtain ⟨q, -, h⟩ := execFlush_changed hc hk
  have hone := hall _ _ h.firstDiffers h.lastDiffers
  have hcol := h.columns_of_onePage hc (h.startPage.trans (hone.trans h.endPage.symm)) h.firstDiffers
  exact ⟨s.onePageLatches q.first (q.lastx - 1),
    fun p => execFlush_onePage (s := s.withPolicy p) hc h.firstDiffers h.lastDiffers (fun _ => h.between) hone,
    rfl, rfl, hcol.2, hone, rfl⟩

/-- Settles O42: the stream is the window, and as long as it. -/
theorem cornersWithOrderedColumnsStreamsTheWindow : Obligations.CornersWithOrderedColumnsStreamsTheWindow := by
  rintro s hc - ⟨k, hk⟩
  obtain ⟨q, hq, h⟩ := execFlush_changed hc hk
  exact ⟨q, _, hq, h.list, fun hcol =>
    ⟨h.stream_pairwise hc, fun i => (h.mem_stream hc).trans inWindow_iff, h.length_stream hc hcol⟩⟩

/-- Settles O43: a difference outside the corner columns is one that columns within one page could not leave out. -/
theorem cornersOmitsDifferencesOutsideTheCornerColumns :
    Obligations.CornersOmitsDifferencesOutsideTheCornerColumns := by
  rintro s hc hp ⟨k, hk⟩
  obtain ⟨q, hq, h⟩ := execFlush_changed hc hk
  obtain ⟨hsc, hec⟩ := h.corners hp
  refine ⟨q, hq, h.list, h.stream_pairwise hc, fun i hi => ⟨h.mem_stream_of_differs hc hi, fun hnot => ?_⟩⟩
  refine Nat.lt_of_le_of_ne h.pages fun hone => hnot ?_
  rw [h.mem_stream_of_differs hc hi, hsc, hec]
  exact h.columns_of_onePage hc hone hi

/-- Settles O44: within one page the columns would be in order; and an inverted window has no index. -/
theorem cornersWithInvertedColumnsStreamsNothing : Obligations.CornersWithInvertedColumnsStreamsNothing := by
  rintro s hc hp ⟨k, hk⟩
  obtain ⟨q, hq, h⟩ := execFlush_changed hc hk
  obtain ⟨hsc, hec⟩ := h.corners hp
  refine ⟨q, hq, by rw [hsc, hec]; rfl, fun hinv => ⟨Nat.lt_of_le_of_ne h.pages fun hone => ?_, ?_⟩⟩
  · have hcol := h.columns_of_onePage hc hone h.firstDiffers
    omega
  · have hnil : streamList s.cfg q.first q.lastx q.win = [] := List.eq_nil_iff_forall_not_mem.2 fun i hi => by
      obtain ⟨hlo, hhi, -⟩ := inWindow_iff.1 ((h.mem_stream hc).1 hi)
      omega
    rw [h.list, hnil, dataTxs, List.map_nil, List.append_nil]

/-- Settles O45: the columns of the differences are within those of the window; a streamed index is one of FB. -/
theorem boundingStreamsEveryDifference : Obligations.BoundingStreamsEveryDifference := by
  rintro s hc hp ⟨k, hk⟩
  obtain ⟨q, hq, h⟩ := execFlush_changed hc hk
  have hcol := h.bounding_columns hp
  refine ⟨q, hq, h.list, h.stream_pairwise hc, hcol, h.pages, fun i hi => ?_, h.length_stream hc hcol,
    fun i hi hsame => ?_⟩
  · exact (h.mem_stream_of_differs hc hi).2 ⟨(h.boundingLeast hp).2 i hi, (h.boundingGreatest hp).2 i hi⟩
  · have hlt : i < s.cfg.n := streamList_lt hc h.lastBound (h.columns hc).2 (h.endPage_le hc) i hi
    by_contra hne
    exact hsame ⟨hlt, hne⟩

/-- Settles O46: one difference lies in one page, and is both its ends. -/
theorem singleDifferenceFlush : Obligations.SingleDifferenceFlush := by
  intro s k hc hk
  have hself : s.differsAt k := (hk k).2 rfl
  have hb : ∀ i, s.differsAt i → k ≤ i ∧ i ≤ k := fun i hi => by
    rw [(hk i).1 hi]
    exact ⟨le_rfl, le_rfl⟩
  rw [exec_flush, execFlush_onePage hc hself hself hb rfl, State.onePageLatches, Nat.add_sub_cancel_left]
  rfl

end Sys2Proof.Machine
end

section
/-! PROOFS. The run of a flush (R142 to R144, R153 to R156): its transactions in order, then the Commit, or the abort at
the first FAIL. -/

namespace Sys2Proof.Machine

/-- R144: of the steps of a flush only the Commit writes FB or SNAP. -/
theorem flushStep_buffers {s : State} {q : Latches} (hlt : q.txpos < q.txlist.length) :
    (s.flushStep q).fb = s.fb ∧ (s.flushStep q).snap = s.snap := by
  rcases flushStep_cases s q with ⟨-, -, he⟩ | ⟨tx, later, -, -, he⟩ | ⟨tx, later, -, -, he⟩ | ⟨hend, -⟩
  · rw [he]; exact ⟨rfl, rfl⟩
  · rw [he]; exact ⟨rfl, rfl⟩
  · rw [he]; exact ⟨rfl, rfl⟩
  · exact absurd hlt (Nat.not_lt.2 hend)

/-- Settles O8: with no reset the step is that of the flush, and no Commit is due. -/
theorem buffersAreStableDuringAFlush : Obligations.BuffersAreStableDuringAFlush := by
  intro s t q hs hlt hr h
  obtain ⟨hc, -⟩ := step_next h
  rw [step_flushing hc hr hs] at h
  cases h
  exact flushStep_buffers (s := s.sampled) hlt

/-- Settles O48: while a transaction is left the step of the flush is Transact, here with the answer FAIL. -/
theorem transactAnsweredFailAborts : Obligations.TransactAnsweredFailAborts := by
  intro s q tx later hc hr hs hx ha
  have hfail : s.sampled.answers = .fail :: later := ha
  rw [step_flushing hc hr hs, flushStep_transact hx, transact_fail hfail]
  rfl

/-- R143: with no transaction left the step of the flush is the Commit. -/
theorem step_commit {s : State} {q : Latches} (hc : s.cfg.wf = true) (hr : s.noReset) (hs : s.seq = .flushing q)
    (hend : q.txpos = q.txlist.length) : step s = .next s.sampled.commit := by
  rw [step_flushing hc hr hs, flushStep_commit hend.ge]

/-- Settles O50: the step is the Commit. -/
theorem commitCopiesFbToSnapAndClearsFb : Obligations.CommitCopiesFbToSnapAndClearsFb :=
  fun _ _ hc hr hs hend => ⟨_, step_commit hc hr hs hend, fun _ => rfl, Memory.read_zeros, rfl⟩

/-! ## Runs -/

/-- The state of a flush after its first `m` transactions have been answered OK, one step each. -/
def State.transacted (s : State) (q : Latches) (m : Nat) (later : List Answer) : State :=
  { s with resetLine := s.resetLine.drop m, answers := later,
           history := s.history ++ (q.txlist.take m).map (⟨·, .ok⟩),
           windowContract := s.windowContract || (decide (2 < m) && decide (q.win.ec < q.win.sc)),
           seq := .flushing { q with txpos := m } }

theorem State.transacted_zero {s : State} {q : Latches} (hs : s.seq = .flushing q) (hq : q.txpos = 0) :
    s.transacted q 0 s.answers = s := by
  rw [State.transacted, ← hq, ← hs, hq]
  simp

theorem State.transacted_noReset {s : State} (hr : ∀ r ∈ s.resetLine, r = false) (q : Latches) (m : Nat)
    (later : List Answer) : (s.transacted q m later).noReset :=
  noReset_of_forall fun r hm => hr r (List.mem_of_mem_drop hm)

/-- The state of a flush aborted at transaction `tx`, behind `j` that have been answered OK (R142). -/
def State.aborted (s : State) (q : Latches) (j : Nat) (tx : Tx) (later : List Answer) : State :=
  { s with resetLine := s.resetLine.drop (j + 1), answers := later,
           history := s.history ++ (q.txlist.take j).map (⟨·, .ok⟩) ++ [⟨tx, .fail⟩],
           windowContract := s.windowContract || (decide (2 < j + 1) && decide (q.win.ec < q.win.sc)),
           seq := .idle, response := some 0x0100, responses := s.responses ++ [0x0100] }

@[simp] theorem State.aborted_cfg (s : State) (q : Latches) (j : Nat) (tx : Tx) (later : List Answer) :
    (s.aborted q j tx later).cfg = s.cfg := rfl
@[simp] theorem State.aborted_fb (s : State) (q : Latches) (j : Nat) (tx : Tx) (later : List Answer) :
    (s.aborted q j tx later).fb = s.fb := rfl
@[simp] theorem State.aborted_snap (s : State) (q : Latches) (j : Nat) (tx : Tx) (later : List Answer) :
    (s.aborted q j tx later).snap = s.snap := rfl

/-- R204: the third transaction is the one that records an inverted window. -/
theorem contract_succ (contract inverted : Bool) (m : Nat) :
    (contract || (decide (2 < m) && inverted) || (m == 2 && inverted)) =
      (contract || (decide (2 < m + 1) && inverted)) := by
  have hm : decide (2 < m + 1) = (decide (2 < m) || m == 2) := by
    rw [Bool.eq_iff_iff, Bool.or_eq_true, decide_eq_true_iff, decide_eq_true_iff, beq_iff_eq]
    omega
  rw [hm, Bool.and_or_distrib_right, Bool.or_assoc]

section
variable {s : State} {q : Latches} (hc : s.cfg.wf = true) (hr : ∀ r ∈ s.resetLine, r = false)
include hc hr

/-- A step of the flush after `m` answers OK, the answer OK again. -/
theorem step_transacted_ok {m : Nat} {tx : Tx} (hx : q.txlist[m]? = some tx) (later : List Answer) :
    step (s.transacted q m (.ok :: later)) = .next (s.transacted q (m + 1) later) := by
  have hr' := State.transacted_noReset hr q m (.ok :: later)
  rw [transactAnsweredOkAdvancesTheCursor (s.transacted q m (.ok :: later)) _ tx later hc hr' rfl hx rfl]
  simp only [State.transacted, contract_succ, List.tail_drop, List.take_add_one, hx, Option.toList_some,
    List.map_append, List.map_singleton, List.append_assoc]

/-- A step of the flush after `j` answers OK, the answer FAIL. -/
theorem step_transacted_fail {j : Nat} {tx : Tx} (hx : q.txlist[j]? = some tx) (later : List Answer) :
    step (s.transacted q j (.fail :: later)) = .next (s.aborted q j tx later) := by
  have hr' := State.transacted_noReset hr q j (.fail :: later)
  rw [transactAnsweredFailAborts (s.transacted q j (.fail :: later)) _ tx later hc hr' rfl hx rfl]
  simp only [State.transacted, State.aborted, contract_succ, List.tail_drop]

variable (hs : s.seq = .flushing q) (hq : q.txpos = 0)
include hs hq

/-- R62, R155: one step for each transaction answered OK, by induction on their number. -/
theorem run_transacted : ∀ (m : Nat) (later : List Answer), m ≤ q.txlist.length →
    s.answers = List.replicate m .ok ++ later → ∀ k, run (m + k) s = run k (s.transacted q m later)
  | 0, later, _, ha, k => by
    obtain rfl : s.answers = later := ha
    rw [State.transacted_zero hs hq, Nat.zero_add]
  | m + 1, later, hm, ha, k => by
    have ha' : s.answers = List.replicate m .ok ++ .ok :: later := by
      rw [ha, List.replicate_succ', List.append_assoc, List.singleton_append]
    calc run (m + 1 + k) s = run (m + (k + 1)) s := by rw [Nat.add_assoc, Nat.add_comm 1 k]
      _ = run (k + 1) (s.transacted q m (.ok :: later)) := run_transacted m _ (Nat.le_of_lt hm) ha' (k + 1)
      _ = run k (s.transacted q (m + 1) later) :=
        run_succ (step_transacted_ok hc hr (List.getElem?_eq_getElem hm) later)
          (acceptsIllegal_of_busy Seq.noConfusion) k

/-- R142, R156: a flush whose transaction `j` is the first answered FAIL. -/
theorem run_aborted {j : Nat} {tx : Tx} (hx : q.txlist[j]? = some tx) {later : List Answer}
    (ha : s.answers = List.replicate j .ok ++ .fail :: later) : run (j + 1) s = .next (s.aborted q j tx later) := by
  obtain ⟨hj, -⟩ := List.getElem?_eq_some_iff.1 hx
  rw [run_transacted hc hr hs hq j _ (Nat.le_of_lt hj) ha 1]
  exact run_succ (step_transacted_fail hc hr hx later) (acceptsIllegal_of_busy Seq.noConfusion) 0

/-- R143, R155: a flush whose every transaction is answered OK. -/
theorem run_committed {later : List Answer} (ha : s.answers = List.replicate q.txlist.length .ok ++ later) :
    run (q.txlist.length + 1) s = .next (s.transacted q q.txlist.length later).sampled.commit := by
  have hr' := State.transacted_noReset hr q q.txlist.length later
  have hstep := step_commit (s := s.transacted q q.txlist.length later) hc hr' rfl rfl
  rw [run_transacted hc hr hs hq _ _ le_rfl ha 1]
  exact run_succ hstep (acceptsIllegal_of_busy Seq.noConfusion) 0

end

/-- Settles O51: the transactions in order, then the Commit. -/
theorem flushCompletesWhenEveryTransactionIsAnsweredOk :
    Obligations.FlushCompletesWhenEveryTransactionIsAnsweredOk := by
  intro s q later hc hr hs hq ha
  refine ⟨_, run_committed hc hr hs hq ha, fun _ => rfl, Memory.read_zeros, rfl, rfl, rfl, ?_, rfl, rfl⟩
  rw [State.commit_history, State.sampled_history, State.transacted, List.take_length]

/-- Settles O52: the transactions before `j` in order, then the abort. -/
theorem flushAbortsAtTheFirstFailure : Obligations.FlushAbortsAtTheFirstFailure :=
  fun _ _ _ _ _ hc hr hs hq hx ha =>
    ⟨_, run_aborted hc hr hs hq hx ha, rfl, rfl, rfl, rfl, rfl, rfl, rfl, rfl⟩

/-! ## After an abort, after a Commit -/

/-- R141: what a FLUSH latches is a function of the configuration, FB and SNAP. -/
theorem exec_flush_congr {s t : State} (hcfg : t.cfg = s.cfg) (hfb : t.fb = s.fb) (hsnap : t.snap = s.snap)
    {q : Latches} (h : exec .flush s = .next { s with seq := .flushing q }) :
    exec .flush t = .next { t with seq := .flushing q } := by
  simp only [exec_flush, execFlush, hfb, hsnap] at h ⊢
  rw [hcfg]
  cases hd : diffSet s.cfg s.fb s.snap with
  | nil =>
    rw [hd] at h
    -- a FLUSH without a difference answers, which the acceptance `h` does not
    have hresponses := congrArg State.responses (Host.Outcome.next.inj h)
    simp at hresponses
  | cons first rest =>
    rw [hd] at h
    simp only [State.openFlush, hcfg, hfb] at h ⊢
    split at h
    · next hend =>
      cases h
      rw [if_pos hend, hsnap]
    · cases h

/-- Settles O53: an abort leaves the configuration, FB and SNAP as the request found them. -/
theorem retryAfterABusFailureFindsTheSameFlush : Obligations.RetryAfterABusFailureFindsTheSameFlush := by
  intro s k j later hc hr hk ha
  obtain ⟨q, hq, h⟩ := execFlush_changed hc hk
  have hretry : ∀ p : Latches, p.txpos = 0 → j < p.txlist.length →
      ∃ t, run (j + 1) { s with seq := .flushing p } = .next t ∧ t.response = some 0x0100 ∧
        exec .flush t = .next { t with seq := .flushing q } := by
    intro p hp hj
    have hrun := run_aborted (s := { s with seq := .flushing p }) hc hr rfl hp (List.getElem?_eq_getElem hj) ha
    exact ⟨_, hrun, rfl,
      exec_flush_congr (s := s) (State.aborted_cfg ..) (State.aborted_fb ..) (State.aborted_snap ..) hq⟩
  exact ⟨q, fullLatches s, hq, execFlushall_eq hc, hretry q h.start, hretry (fullLatches s) rfl⟩

/-- Settles O54: FB is 0x00 after the Commit, and SNAP is the frame `F`. -/
theorem flushRightAfterACommit : Obligations.FlushRightAfterACommit := by
  intro s t q hc hr hs hend h
  rw [step_commit hc hr hs hend] at h
  cases h
  have hdiff : ∀ i, s.sampled.commit.differsAt i ↔ i < s.cfg.n ∧ s.fb.read i ≠ 0x00 :=
    fun i => and_congr_right fun _ => ne_comm
  constructor
  · intro hzero
    have hnone : ∀ i, ¬ s.sampled.commit.differsAt i := fun i hi => ((hdiff i).1 hi).2 (hzero i hi.1)
    exact ⟨_, execFlush_unchanged hnone, State.flushUnchanged_seq _, State.flushUnchanged_history _,
      State.flushUnchanged_response _⟩
  · rintro ⟨k, hk⟩
    obtain ⟨p, hp, hcmp⟩ := execFlush_changed (s := s.sampled.commit) hc ((hdiff k).2 hk)
    exact ⟨p, hp, hcmp.list, hdiff⟩

/-- Settles O55: the acceptance of the FLUSHALL, then its run. -/
theorem flushallRoundTrip : Obligations.FlushallRoundTrip := by
  intro s later more hinv hs hr hq ha
  let s₀ := s.sampled.takeRequest later
  let s₁ : State := { s₀ with seq := .flushing (fullLatches s₀) }
  have hdecode : decodeReq 0x0500000000000000 = .ok .flushall := by decide
  have haccept : run (s.cfg.n + 8) s = run (s.cfg.n + 7) s₁ :=
    run_request hinv.cfg hr hs hinv.slot hq hdecode (execFlushall_eq (s := s₀) hinv.cfg) _
  have hr₁ : ∀ r ∈ s₁.resetLine, r = false := fun r hm => hr r (List.mem_of_mem_tail hm)
  have hlen : (fullLatches s₀).txlist.length = 6 + s.cfg.n := length_fullLatches_txlist s₀
  obtain ⟨t, ht, hsnap, hfb, hseq, hresponse, -, hhistory, hanswers, hrequests⟩ :=
    flushCompletesWhenEveryTransactionIsAnsweredOk s₁ (fullLatches s₀) more hinv.cfg hr₁ rfl rfl (hlen ▸ ha)
  rw [hlen, show 6 + s.cfg.n + 1 = s.cfg.n + 7 by omega] at ht
  exact ⟨t, haccept.trans ht, hsnap, hfb, hseq, hresponse, hrequests, hanswers, hhistory⟩

end Sys2Proof.Machine
end

section
/-! PROOFS. The wait of a flush for the transport (R190): a Transact step that finds no answer leaves FBCORE where it is. -/

namespace Sys2Proof.Machine

/-- Settles O49: while a transaction is left the step of the flush is Transact, here with no answer. -/
theorem unansweredTransactionWaits : Obligations.UnansweredTransactionWaits := by
  intro s q hc hr hs hlt hnone
  have hx : q.txlist[q.txpos]? = some q.txlist[q.txpos] := List.getElem?_eq_getElem hlt
  rw [step_flushing hc hr hs, flushStep_transact hx, transact_nil (s := s.sampled) hnone]
  rfl

end Sys2Proof.Machine
end

section
/-! PROOFS. The recorded WindowContract fault (R204, R207): the Transact step that answers the third transaction of an
inverted window sets it, and every other kind of step keeps it. -/

namespace Sys2Proof.Machine

/-- The transport answers the third transaction of a flush whose window is inverted (R204; log entry 9). -/
def State.AnswersInverted (s : State) : Prop :=
  ∃ q tx a later, s.seq = .flushing q ∧ q.txpos = 2 ∧ q.win.ec < q.win.sc ∧ q.txlist[q.txpos]? = some tx ∧
    s.answers = a :: later

/-- What a step keeps, where no cause `P` is met, holds after it exactly when it held before or `P` is met. -/
theorem kept_iff {b b' : Bool} {P : Prop} (h : b' = b) (hP : ¬ P) : b' = true ↔ b = true ∨ P := by
  rw [h, or_iff_left hP]

section
variable {s t : State} {q : Latches}

theorem breaksWindowContract_iff : breaksWindowContract q = true ↔ q.txpos = 2 ∧ q.win.ec < q.win.sc := by
  rw [breaksWindowContract, Bool.and_eq_true, beq_iff_eq, decide_eq_true_iff]

/-- R31 (2), R204: a transaction that is answered is entered in the history, and its window is judged, whichever the
answer. -/
theorem flushStep_answered {tx : Tx} {a : Answer} {later : List Answer} (hx : q.txlist[q.txpos]? = some tx)
    (ha : s.answers = a :: later) : (s.flushStep q).history = s.history ++ [⟨tx, a⟩] ∧
      (s.flushStep q).windowContract = (s.windowContract || breaksWindowContract q) := by
  rw [flushStep_transact hx]
  cases a with
  | ok => rw [transact_ok ha]; exact ⟨rfl, rfl⟩
  | fail => rw [transact_fail ha]; exact ⟨rfl, rfl⟩

/-- A step of a flush that has no answer to a transaction is the wait or the Commit; neither judges the window. -/
theorem flushStep_windowContract_iff (hs : s.seq = .flushing q) :
    (s.flushStep q).windowContract = true ↔ s.windowContract = true ∨ s.AnswersInverted := by
  have hinverted : s.AnswersInverted ↔ breaksWindowContract q = true ∧
      ∃ tx a later, q.txlist[q.txpos]? = some tx ∧ s.answers = a :: later := by
    simp [State.AnswersInverted, hs, breaksWindowContract_iff, and_assoc]
  rw [hinverted]
  cases hx : q.txlist[q.txpos]? with
  | none => exact kept_iff (by rw [flushStep_commit (List.getElem?_eq_none_iff.1 hx), s.commit_windowContract]) (by simp)
  | some tx =>
    cases ha : s.answers with
    | nil => exact kept_iff (by rw [flushStep_transact hx, transact_nil ha]) (by simp)
    | cons a later =>
      obtain ⟨-, hcontract⟩ := flushStep_answered hx ha
      simp [hcontract]

@[simp] theorem commandStep_windowContract (s : State) (p : List Tx) :
    (s.commandStep p).windowContract = s.windowContract := by
  obtain ⟨q, l, h, he⟩ := commandStep_frame s p
  rw [he]

theorem exec_windowContract {i : Instr} (h : exec i s = .next t) : t.windowContract = s.windowContract := by
  obtain ⟨-, -, -, -, -, -, hcontract, -⟩ := exec_frame h
  exact hcontract

theorem runCommand_windowContract {w : CtrlWord} (h : s.runCommand w = .next t) :
    t.windowContract = s.windowContract := by
  obtain ⟨i, -, he⟩ := runCommand_next h
  exact (exec_windowContract he).trans s.takeCommand_windowContract

/-- R207: no acceptance records the fault, of a FLUSH or FLUSHALL either. -/
theorem accept_windowContract {w : ReqWord} {later : List ReqWord} (h : s.accept w later = .next t) :
    t.windowContract = s.windowContract := by
  rcases accept_next h with ⟨e, -, rfl⟩ | ⟨i, -, -, he⟩
  · rw [State.raise_windowContract, State.takeRequest_windowContract]
  · exact (exec_windowContract he).trans (s.takeRequest_windowContract later)

theorem not_answersInverted (hs : ∀ q, s.seq ≠ .flushing q) : ¬ s.AnswersInverted :=
  fun ⟨q, _, _, _, hq, _⟩ => hs q hq

theorem advance_windowContract_iff (h : s.advance = .next t) :
    t.windowContract = true ↔ s.windowContract = true ∨ s.AnswersInverted := by
  rcases advance_next h with ⟨q, hs, rfl⟩ | ⟨p, hs, rfl⟩ | ⟨hs, w, -, hw⟩ | ⟨hs, -, w, later, -, ha⟩ | ⟨hs, -, -, rfl⟩
  · exact flushStep_windowContract_iff hs
  · exact kept_iff (commandStep_windowContract s p) (not_answersInverted (by simp [hs]))
  · exact kept_iff (runCommand_windowContract hw) (not_answersInverted (by simp [hs]))
  · exact kept_iff (accept_windowContract ha) (not_answersInverted (by simp [hs]))
  · exact kept_iff rfl (not_answersInverted (by simp [hs]))

/-- R204: the fault stands after a step exactly when it stood before, a reset included, or the step records it. -/
theorem step_windowContract_iff (h : step s = .next t) :
    t.windowContract = true ↔ s.windowContract = true ∨ s.noReset ∧ s.AnswersInverted := by
  obtain ⟨-, ⟨later, hl, rfl⟩ | ⟨hr, ha⟩⟩ := step_next h
  · exact kept_iff (State.resetCore_windowContract _) fun hcause => not_noReset_iff.2 ⟨later, hl⟩ hcause.1
  · rw [and_iff_right hr]
    exact advance_windowContract_iff (s := s.sampled) ha

end

/-- Settles O12: the fault stays, and the step that records it has a transaction answered; under BOUNDING the invariant
keeps the columns in order (R151). -/
theorem windowContractIsStickyAndOnlyForInvertedCorners :
    Obligations.WindowContractIsStickyAndOnlyForInvertedCorners := by
  intro s t h
  have hiff := step_windowContract_iff h
  refine ⟨fun hw => hiff.2 (.inl hw), fun hinv hclear hset => ?_⟩
  obtain ⟨hr, q, tx, a, later, hs, -, hinverted, hx, ha⟩ := (hiff.1 hset).resolve_left (by simp [hclear])
  rw [step_flushing hinv.cfg hr hs] at h
  cases h
  obtain ⟨hissued, -⟩ := flushStep_answered (s := s.sampled) hx ha
  refine ⟨?_, q, tx, a, hs, hinverted, hx, hissued⟩
  cases hp : s.cfg.windowPolicy with
  | corners => rfl
  | bounding => exact absurd ((hinv.shape hs).columns hp) (Nat.not_le.2 hinverted)

end Sys2Proof.Machine
end

section
/-! PROOFS. When a run goes wrong (R217): exactly in a step that accepts an illegal word or a BYTEAT out of range, or that
records WindowContract; and when it is refused (R203). -/

namespace Sys2Proof.Machine

/-- R217: an OUT_OF_RANGE or an ILLEGAL_REQUEST response has been given. -/
def State.answeredWrong (s : State) : Bool :=
  s.responses.any fun r => rspStatus r == statusCode .outOfRange || rspStatus r == statusCode .illegalRequest

/-- The request words whose acceptance makes a run go wrong: an illegal one (R203), and a BYTEAT out of range (R202). -/
def WrongRequest (c : Config) (w : ReqWord) : Prop :=
  (∃ e, decodeReq w = .error e) ∨ ∃ idx, decodeReq w = .ok (.byteat idx) ∧ c.n ≤ idx

/-- Such a word stands on the port of an idle FBCORE with nothing in the command slot. -/
def State.PresentsWrongRequest (s : State) : Prop :=
  s.seq = .idle ∧ s.command = none ∧ ∃ w later, s.requests = w :: later ∧ WrongRequest s.cfg w

section
variable {s t : State}

theorem goneWrong_iff : s.goneWrong = true ↔ s.windowContract = true ∨ s.answeredWrong = true := by
  rw [State.goneWrong, State.answeredWrong, Bool.or_eq_true]

theorem answeredWrong_congr (h : t.responses = s.responses) : t.answeredWrong = s.answeredWrong := by
  rw [State.answeredWrong, State.answeredWrong, h]

/-- R217: one more response counts when its status is one of the two; OK and BUS_ERROR are normal outcomes. -/
theorem answeredWrong_append {st : Status} {d : Byte} (h : t.responses = s.responses ++ [rspWord st d]) :
    t.answeredWrong = true ↔ s.answeredWrong = true ∨ st = .outOfRange ∨ st = .illegalRequest := by
  rw [State.answeredWrong, State.answeredWrong, h, List.any_append, Bool.or_eq_true]
  refine or_congr_right ?_
  cases st with
  | ok => simp [statusCode]
  | busError => simp [statusCode]
  | outOfRange => simp
  | illegalRequest => simp

theorem answeredWrong_ok {d : Byte} (h : t.responses = s.responses ++ [rspWord .ok d]) :
    t.answeredWrong = s.answeredWrong := by
  rw [Bool.eq_iff_iff, answeredWrong_append h]
  simp

/-- R217: a flush ends OK or with BUS_ERROR. -/
theorem flushStep_answeredWrong (s : State) (q : Latches) : (s.flushStep q).answeredWrong = s.answeredWrong := by
  rcases flushStep_cases s q with ⟨-, -, he⟩ | ⟨tx, later, -, -, he⟩ | ⟨tx, later, -, -, he⟩ | ⟨-, he⟩
  · rw [he]
  · exact answeredWrong_congr (by rw [he])
  · rw [Bool.eq_iff_iff, answeredWrong_append (s := s) (st := .busError) (d := 0) (by rw [he])]
    simp
  · exact answeredWrong_ok (by rw [he, State.commit_responses])

/-- R202: of the legal requests only a BYTEAT out of range is answered with an error. -/
theorem exec_answeredWrong_iff (hc : s.cfg.wf = true) {i : Instr} (hi : i.isRequest = true)
    (h : exec i s = .next t) :
    t.answeredWrong = true ↔ s.answeredWrong = true ∨ ∃ idx, i = .byteat idx ∧ s.cfg.n ≤ idx := by
  by_cases hout : ∃ idx, i = .byteat idx ∧ s.cfg.n ≤ idx
  · obtain ⟨idx, rfl, hidx⟩ := hout
    rw [exec_byteat, execByteat_ge hidx] at h
    cases h
    simp [answeredWrong_append (s.raise_responses .outOfRange), hidx]
  · refine kept_iff ?_ hout
    rcases exec_request_cases hc hi with ⟨k, v, -, e⟩ | ⟨d, e⟩ | e | ⟨idx, hb, hidx, -⟩ | ⟨q, -, -, e⟩
    · rw [e] at h; cases h; exact answeredWrong_ok rfl
    · rw [e] at h; cases h; exact answeredWrong_ok rfl
    · rw [e] at h; cases h; exact answeredWrong_ok rfl
    · exact absurd ⟨idx, hb, hidx⟩ hout
    · rw [e] at h; cases h; rfl

theorem accept_answeredWrong_iff (hc : s.cfg.wf = true) {w : ReqWord} {later : List ReqWord}
    (h : s.accept w later = .next t) :
    t.answeredWrong = true ↔ s.answeredWrong = true ∨ WrongRequest s.cfg w := by
  rcases accept_next h with ⟨e, hd, rfl⟩ | ⟨i, hd, hi, he⟩
  · have hraised : ((s.takeRequest later).raise .illegalRequest).responses = s.responses ++ [rspWord .illegalRequest 0] :=
      rfl
    simp [answeredWrong_append hraised, WrongRequest, hd]
  · have hwrong : WrongRequest s.cfg w ↔ ∃ idx, i = .byteat idx ∧ s.cfg.n ≤ idx := by simp [WrongRequest, hd]
    rw [hwrong]
    exact exec_answeredWrong_iff (s := s.takeRequest later) hc hi he

theorem advance_answeredWrong_iff (hc : s.cfg.wf = true) (h : s.advance = .next t) :
    t.answeredWrong = true ↔ s.answeredWrong = true ∨ s.PresentsWrongRequest := by
  rcases advance_next h with ⟨q, hs, rfl⟩ | ⟨p, hs, rfl⟩ | ⟨-, w, hw, hrun⟩ | ⟨hs, hslot, w, later, hq, ha⟩ |
    ⟨-, -, hq, rfl⟩
  · exact kept_iff (flushStep_answeredWrong s q) (by simp [State.PresentsWrongRequest, hs])
  · exact kept_iff (answeredWrong_congr (commandStep_responses s p)) (by simp [State.PresentsWrongRequest, hs])
  · exact kept_iff (answeredWrong_congr (runCommand_responses hrun)) (by simp [State.PresentsWrongRequest, hw])
  · have hpresents : s.PresentsWrongRequest ↔ WrongRequest s.cfg w := by
      simp [State.PresentsWrongRequest, hs, hslot, hq]
    rw [hpresents]
    exact accept_answeredWrong_iff hc ha
  · exact kept_iff rfl (by simp [State.PresentsWrongRequest, hq])

theorem step_answeredWrong_iff (h : step s = .next t) :
    t.answeredWrong = true ↔ s.answeredWrong = true ∨ s.noReset ∧ s.PresentsWrongRequest := by
  obtain ⟨hc, ⟨later, hl, rfl⟩ | ⟨hr, ha⟩⟩ := step_next h
  · exact kept_iff (answeredWrong_congr (State.resetCore_responses _)) fun hcause =>
      not_noReset_iff.2 ⟨later, hl⟩ hcause.1
  · rw [and_iff_right hr]
    exact advance_answeredWrong_iff (s := s.sampled) hc ha

/-- R217: a run has gone wrong after a step exactly when it had before, or the step accepts a word of the first two ways,
or it answers the third transaction of an inverted window. -/
theorem step_goneWrong_iff (h : step s = .next t) :
    t.goneWrong = true ↔ s.goneWrong = true ∨ s.noReset ∧ (s.PresentsWrongRequest ∨ s.AnswersInverted) := by
  rw [goneWrong_iff, goneWrong_iff, step_windowContract_iff h, step_answeredWrong_iff h]
  tauto

end

/-- Settles O13: what the step does to make the run go wrong is one of the three ways. -/
theorem aRunGoesWrongOnlyInTheThreeListedWays : Obligations.ARunGoesWrongOnlyInTheThreeListedWays := by
  intro s t _ h hbefore hafter
  obtain ⟨-, hcause⟩ := ((step_goneWrong_iff h).1 hafter).resolve_left (by simp [hbefore])
  rcases hcause with ⟨hs, -, w, later, hq, ⟨e, he⟩ | ⟨idx, hd, hidx⟩⟩ | ⟨q, -, -, -, hs, -, hinverted, -⟩
  · exact .inl ⟨w, later, e, hs, hq, he⟩
  · exact .inr (.inl ⟨w, later, idx, hs, hq, hd, hidx⟩)
  · exact .inr (.inr ⟨q, hs, hinverted⟩)

/-- Settles O58: each of the three ways is a cause that `step_goneWrong_iff` names. -/
theorem eachListedWayMakesARunGoWrong : Obligations.EachListedWayMakesARunGoWrong := by
  refine ⟨fun _ => rfl, fun s t h => ?_⟩
  have hiff := step_goneWrong_iff h
  refine ⟨fun hwrong => hiff.2 (.inl hwrong), ?_, ?_, ?_⟩
  · intro w later e hr hs hslot hq he
    exact hiff.2 (.inr ⟨hr, .inl ⟨hs, hslot, w, later, hq, .inl ⟨e, he⟩⟩⟩)
  · intro w later idx hr hs hslot hq hd hidx
    exact hiff.2 (.inr ⟨hr, .inl ⟨hs, hslot, w, later, hq, .inr ⟨idx, hd, hidx⟩⟩⟩)
  · intro q tx hr hs hpos hx ha hinverted
    obtain ⟨a, later, ha⟩ := List.exists_cons_of_ne_nil ha
    exact hiff.2 (.inr ⟨hr, .inr ⟨q, tx, a, later, hs, hpos, hinverted, hx, ha⟩⟩)

/-- R203: a step of a run that accepts an illegal word. -/
theorem run_refused {s t : State} {w : ReqWord} (h : step s = .next t) (hw : s.acceptsIllegal = some w) (k : Nat) :
    run (k + 1) s = .refused (.illegalRequest w) := by
  simp [run, h, hw]

/-- Settles O59: the block answers the illegal word, and the run is refused; with no illegal word accepted it goes on. -/
theorem aRunThatPresentsAnIllegalWordIsRefused : Obligations.ARunThatPresentsAnIllegalWordIsRefused := by
  constructor
  · intro s w later e k hc hr hs hslot hq he
    have hstep := illegalWordIsAnsweredAndChangesNothing s w later e hc hr hs hslot hq he
    exact run_refused hstep (acceptsIllegal_iff.2 ⟨hr, hs, hslot, later, e, hq, he⟩) k
  · intro s t k h hlegal
    refine run_succ h (Option.eq_none_iff_forall_ne_some.2 fun w hw => ?_) k
    obtain ⟨hr, hs, hslot, later, e, hq, he⟩ := acceptsIllegal_iff.1 hw
    obtain ⟨i, hd⟩ := hlegal hr hs hslot w later hq
    rw [he] at hd
    cases hd

end Sys2Proof.Machine
end

section
/-! PROOFS. The reset step (R230, R231): in every phase it is `State.resetCore` after the sample of the reset line. -/

namespace Sys2Proof.Machine

/-- Settles O2: both memories become the memory of zeros; the phase, the response and what is kept are the fields of
`State.resetCore`. -/
theorem resetStepRestoresTheResetValues : Obligations.ResetStepRestoresTheResetValues := by
  intro s later hc hl
  refine ⟨_, step_reset hc hl, Memory.read_zeros, Memory.read_zeros, ?_⟩
  simp only [State.resetCore_seq, State.resetCore_response, State.resetCore_history, State.resetCore_answers,
    State.resetCore_responses, State.resetCore_windowContract, State.resetCore_cfg, and_self]

end Sys2Proof.Machine
end
